-- ==== Sys2Proof/Word.lean ====
section
/-! DEFINITION. The word types of the CORE and their plainest arithmetic (00_scope.md R7-R9). -/

namespace Sys2Proof

/-- A register value, a command word or a host address: 32 bits (R8). -/
abbrev Word := BitVec 32

/-- A bit; a cell of the bit memory holds one (R9, R22: no other value can be stored). -/
abbrev Bit := Bool

/-- A bit sequence, index 0 first (R9). -/
abbrev BitSeq := List Bit

/-- `uint32(v)` (R8). -/
abbrev uint32 (v : Word) : Nat := v.toNat

/-- `sint32(v)`, two's complement (R8). -/
abbrev sint32 (v : Word) : Int := v.toInt

/-- `ceil_div(a, b)` (R7). -/
def ceilDiv (a b : Nat) : Nat := (a + b - 1) / b

/-- `zeros(k)` (R9). -/
def zeros (k : Nat) : BitSeq := List.replicate k false

/-- `ones(s)`: the number of 1 bits (R9). -/
def ones (s : BitSeq) : Nat := s.countP (· == true)

/-- A bit read as the integer 0 or 1 (R10 shifts and ors such integers). -/
def bitVal (b : Bit) : Nat := if b then 1 else 0

end Sys2Proof
end

