-- ==== Sys2Proof/Config.lean ====
section
/-! DEFINITION. What an implementation fixes (00_scope.md R6) and the free values of the spec.
A constant declared `opaque` here has no value a proof could use. -/

namespace Sys2Proof.Config

/-- Which NoiseSource an implementation builds (R6, R230): the default generator of R231, or any other one,
named by a number (log 6). -/
inductive NoiseSel where
  | lcg
  | other (id : Nat)
  deriving DecidableEq, Repr

/-- The parameters of R6 that a rule of the machine reads. TICK and LATENCY are read by none (log 14). -/
structure Params where
  /-- `BM_BITS`, the bit-memory size in cells. -/
  bmBits : Nat
  /-- `WIN_BASE`, the byte address of the window. -/
  winBase : Nat
  /-- `NoiseSource`. -/
  noise : NoiseSel
  deriving DecidableEq, Repr

/-- The defaults of R6. -/
def Params.default : Params where
  bmBits := 65536
  winBase := 0x00010000
  noise := .lcg

/-- A NoiseSource over a state type `S`: its `init` and its `next` (R230). -/
abbrev NoiseSource (S : Type) := (Word → S) × (S → BitVec 31 × S)

/-- `init` of a generator other than the default one, its states written as numbers: a free parameter
(R230, U4; log 6). -/
opaque otherInit : Nat → Word → Nat

/-- `next` of a generator other than the default one: a free parameter (R230, U4; log 6). -/
opaque otherNext : Nat → Nat → BitVec 31 × Nat

/-- The bit a read of a cell nothing has written yields: a free draw, by the draw's number, the number of the
MemRead inside its step, and the cell's address (10_state.md R21, U10; log 2). -/
opaque freeBit : Nat → Nat → Nat → Bit

/-- `Entropy()`: the 32-bit draw an unseeded NOISE takes, by the draw's number (44_channel.md R232, U3; log 7). -/
opaque entropy : Nat → Word

/-- How far `NOW` advances in a time-base step that no scheduled turn gives an amount for, by the draw's
number (60_exceptions.md R300, U15; log 20). -/
opaque freeTicks : Nat → BitVec 64

end Sys2Proof.Config
end

