-- ==== Sys2Proof/Syntax.lean ====
section
/-! DEFINITION. The commands of BSC-1 (30_encoding.md R91), the registers of the register block (10_state.md R23),
the accesses of the host port (20_memory.md R62) and the lines of a host script (30_encoding.md R106, R107). -/

namespace Sys2Proof

/-- The 14 commands. A command word carries no operands (R96); only NOISE has a field, S (R94). -/
inductive Instr where
  | bpack
  | tpack
  | renc
  | rdec
  | henc
  | hdec
  | hencb
  | hdecb
  /-- `seeded` is the field S: seed from SEED, or from Entropy. -/
  | noise (seeded : Bool)
  | ber
  | succ
  | tstart
  | tstop
  | tread
  deriving DecidableEq, Repr

/-- Why a word is no command (30_encoding.md R92). -/
inductive Illegal where
  | rsvBits
  | badOpcode
  | sNotAllowed
  deriving DecidableEq, Repr

/-- The registers of the block at offsets 0x00 to 0x40 (10_state.md R23). -/
inductive Reg where
  | id | cmd | status | irqen
  | src0 | src1 | dst | len0 | len1 | param | prob | seed
  | outlen | res0 | res1 | tstate | bmsize
  deriving DecidableEq, Repr

/-- The three access widths of the host port (20_memory.md R62). -/
inductive Width where
  | w8 | w16 | w32
  deriving DecidableEq, Repr

/-- One access of the host port. The data of an `N`-bit write stand in the low `N` bits (log 11). -/
inductive Access where
  | read (w : Width) (addr : Word)
  | write (w : Width) (addr : Word) (data : Word)
  deriving DecidableEq, Repr

/-- What the host does next on its port: one access, or the `wait` loop of R107, which reads STATUS until
DONE is 1 (log 17). -/
inductive HostOp where
  | access (a : Access)
  | waitDone
  deriving DecidableEq, Repr

/-- A line of a host script: the notation of R106 and the pseudo-instructions of R107. -/
inductive Line where
  | wr (r : Reg) (v : Word)
  | rd (r : Reg)
  | wb8 (k : Nat) (v : BitVec 8)
  | wb16 (k : Nat) (v : BitVec 16)
  | wb32 (k : Nat) (v : BitVec 32)
  | rb8 (k : Nat)
  | rb16 (k : Nat)
  | rb32 (k : Nat)
  /-- `cmd MN`; `cmd NOISE.S` is `cmd (.noise true)`. -/
  | cmd (i : Instr)
  | wait
  | run (i : Instr)
  | clr
  | setup (values : List (Reg × Word))
  deriving DecidableEq, Repr

end Sys2Proof
end

