-- ==== Sys2Proof/WellFormed.lean ====
section
/-! DEFINITION. Well-formedness: of a command, of the parameters (00_scope.md R6) and of a host-script line
(30_encoding.md R106, R107). -/

namespace Sys2Proof

/-- Every command is well formed: its word carries no operand that could be out of range (30_encoding.md R96),
and the one field, S, stands only in the constructor that may carry it (R92, R94). -/
def Instr.wf : Instr → Bool
  | .bpack | .tpack | .renc | .rdec | .henc | .hdec | .hencb | .hdecb => true
  | .noise _ => true
  | .ber | .succ | .tstart | .tstop | .tread => true

/-- The legal values of the parameters (R6). -/
def Config.Params.wf (p : Config.Params) : Bool :=
  p.bmBits % 32 == 0 && decide (32 ≤ p.bmBits) && decide (p.bmBits ≤ 2 ^ 31)
    && p.winBase % 0x100 == 0 && decide (0x100 ≤ p.winBase)
    && decide (p.winBase + p.bmBits / 8 ≤ 2 ^ 32)

/-- A window line is well formed if it names window bytes, aligned to its width (R106; 20_memory.md R62). An
ill-formed line is still a script line: its access goes to `WIN_BASE + k` and, below 2^32, has no effect and sets
STATUS.ACCERR (10_state.md R31; log 24). From 2^32 on the address wraps, and the access has the effect of the wrapped
address (the model's choice, log 25). -/
def Line.wf (p : Config.Params) : Line → Bool
  | .wb8 k _ | .rb8 k => decide (k < p.bmBits / 8)
  | .wb16 k _ | .rb16 k => decide (k + 2 ≤ p.bmBits / 8) && k % 2 == 0
  | .wb32 k _ | .rb32 k => decide (k + 4 ≤ p.bmBits / 8) && k % 4 == 0
  | .wr _ _ | .rd _ | .cmd _ | .wait | .run _ | .clr | .setup _ => true

end Sys2Proof
end

