-- ==== Sys2Proof/Decode.lean ====
section
/-! DEFINITION. The decoder of command words and the encoder (30_encoding.md R90-R95, R102). -/

namespace Sys2Proof

/-- The field `OP`, bits 7:0 (R90). -/
def opField (w : Word) : BitVec 8 := w.extractLsb' 0 8

/-- The field `S`, bit 8 (R90). -/
def sField (w : Word) : Bool := w.getLsbD 8

/-- The field `RSV`, bits 31:9 (R90). -/
def rsvField (w : Word) : BitVec 23 := w.extractLsb' 9 23

/-- The opcode map (R91): the command of an opcode, given the field S. -/
def ofOpcode (op : BitVec 8) (seeded : Bool) : Option Instr :=
  match op.toNat with
  | 0x01 => some .bpack
  | 0x02 => some .tpack
  | 0x03 => some .renc
  | 0x04 => some .rdec
  | 0x05 => some .henc
  | 0x06 => some .hdec
  | 0x07 => some .hencb
  | 0x08 => some .hdecb
  | 0x09 => some (.noise seeded)
  | 0x0A => some .ber
  | 0x0B => some .succ
  | 0x0C => some .tstart
  | 0x0D => some .tstop
  | 0x0E => some .tread
  | _ => none

/-- The decoder, total on 32-bit words, its three checks in the order of R92. -/
def decode (w : Word) : Except Illegal Instr :=
  if rsvField w ≠ 0 then .error .rsvBits
  else match ofOpcode (opField w) (sField w) with
    | none => .error .badOpcode
    | some i => if sField w && opField w != 0x09 then .error .sNotAllowed else .ok i

/-- The opcode of a command (R91). -/
def opcode : Instr → BitVec 8
  | .bpack => 0x01
  | .tpack => 0x02
  | .renc => 0x03
  | .rdec => 0x04
  | .henc => 0x05
  | .hdec => 0x06
  | .hencb => 0x07
  | .hdecb => 0x08
  | .noise _ => 0x09
  | .ber => 0x0A
  | .succ => 0x0B
  | .tstart => 0x0C
  | .tstop => 0x0D
  | .tread => 0x0E

/-- The field S of a command's word (R94). -/
def seedBit : Instr → Bool
  | .noise seeded => seeded
  | .bpack | .tpack | .renc | .rdec | .henc | .hdec | .hencb | .hdecb => false
  | .ber | .succ | .tstart | .tstop | .tread => false

/-- The command word of a command: `RSV` zero, then S, then the opcode (R90). -/
def encode (i : Instr) : Word := (0 : BitVec 23) ++ (BitVec.ofBool (seedBit i) ++ opcode i)

/-- The command our decoder reads from a table row's word: bit 0 of the table is bit 0 of the command word,
and a command is one 32-bit word (R93). -/
def decodeTableWord (nbits w : Nat) : Option Instr :=
  let v := w % 2 ^ nbits
  if v < 2 ^ 32 then
    match decode (BitVec.ofNat 32 v) with
    | .ok i => some i
    | .error _ => none
  else none

end Sys2Proof
end

