-- ==== Sys2Proof/Machine/State.lean ====
section
/-! DEFINITION. The state of the CORE (10_state.md, complete state vector), the reasons a step could stop, and
the state after reset (70_reset_and_hazards.md R320). -/

namespace Sys2Proof.Machine

/-- The bit memory `BM` (R20): the cells written since reset, as (bit address, bit) pairs in ONE canonical form,
addresses strictly rising. An unlisted cell has no bit of its own: a read of it is a free draw (R21), so no
entry could equal what an unlisted cell reads as (log 1, log 2). -/
abbrev Memory := List (Nat × Bit)

/-- The STATUS register less BUSY (R26): the five flags and two codes are named fields, since its reserved bits
have no storage (R23). BUSY is `State.busy` (log 4). -/
structure Status where
  done : Bool
  err : Bool
  ovr : Bool
  accerr : Bool
  ecode : BitVec 4
  ecause : BitVec 8
  deriving DecidableEq, Repr

/-- The eight operand registers (R35, R36). -/
structure Operands where
  src0 : Word
  src1 : Word
  dst : Word
  len0 : Word
  len1 : Word
  param : Word
  prob : Word
  seed : Word
  deriving DecidableEq, Repr

/-- The latched command record `L` (R43). -/
structure Latch where
  cmd : Word
  ops : Operands
  deriving DecidableEq, Repr

/-- The timer state (R45). The value 3 of TSTATE never occurs (R40). -/
inductive TimerState where
  | idle
  | running
  | stopped
  deriving DecidableEq, Repr

/-- The command errors: one constructor per cause of 60_exceptions.md R281-R285. -/
inductive CmdError where
  | repNNonpos | hamEncLen | hamDecLen | hamDecbLen | probRange | metricLen
  | rsvBits | badOpcode | sNotAllowed
  | src0Range | src1Range | dstRange
  | dstSrc0
  | stopNotRunning | readIdle
  deriving DecidableEq, Repr

/-- The steps of the total order of 20_memory.md R74, and the `rst` input (R323; log 8, log 13). -/
inductive Turn where
  /-- (a): the host makes its next access. -/
  | host
  /-- (b): the engine's execute step. -/
  | engine
  /-- (c): `NOW` advances by the drawn amount `k` (60_exceptions.md R300). -/
  | timeBase (k : BitVec 64)
  /-- A clock edge with `rst` asserted. -/
  | rst
  deriving DecidableEq, Repr

/-- The state of one CORE instance, the accesses its host has still to make, and the order of the steps to come. -/
structure State where
  /-- The parameters of this machine; no step changes them (00_scope.md R6; log 5). -/
  params : Config.Params
  /-- `BM`. -/
  bm : Memory
  /-- CMD: the last accepted word (R25). -/
  cmd : Word
  /-- STATUS (R26). -/
  status : Status
  /-- `L`, held exactly while STATUS.BUSY is 1 (R43; log 4). -/
  latch : Option Latch
  /-- IRQEN.DONE_IE (R34). -/
  doneIe : Bool
  /-- SRC0 to SEED (R35). -/
  ops : Operands
  /-- OUTLEN (R37). -/
  outlen : Word
  /-- RES0 (R38). -/
  res0 : Word
  /-- RES1 (R38). -/
  res1 : Word
  /-- TSTATE (R40, R45). -/
  tstate : TimerState
  /-- The start timestamp (R45). -/
  t0 : BitVec 64
  /-- The stop timestamp (R45). -/
  t1 : BitVec 64
  /-- The time base (60_exceptions.md R300). -/
  now : BitVec 64
  /-- The data the host port answered its last read with (20_memory.md R62; log 10). -/
  rdata : Word
  /-- What the host does next on its port, in its order (20_memory.md R68; log 8). -/
  port : List HostOp
  /-- Whose steps come next (20_memory.md R74; log 8). -/
  sched : List Turn
  /-- The number of steps taken: the free values of a step are opaque constants applied to it (log 3). -/
  draws : Nat
  deriving DecidableEq, Repr

/-- Why a step could stop with a fault. The spec gives this machine none: every access and every word has an
effect or a recorded error (R31, 40_command_engine.md R130). -/
inductive Fault where
  /-- Raised by a meaning run on a state that holds no latched command; `step` runs a meaning only on a latched
  command and never raises it. Safe (log 16). -/
  | noCommand
  deriving DecidableEq, Repr

/-- Why an instruction could be refused. -/
inductive Refusal where
  /-- An instruction without a meaning, by its mnemonic. No arm of `exec` answers it. Safe. -/
  | notModelled (mnemonic : String)
  deriving DecidableEq, Repr

/-- What a step answers. -/
abbrev Outcome := Host.Outcome State Fault Refusal

/-- STATUS after reset (R320). -/
def Status.reset : Status where
  done := false
  err := false
  ovr := false
  accerr := false
  ecode := 0
  ecause := 0

/-- The operand registers after reset (R320). -/
def Operands.reset : Operands where
  src0 := 0
  src1 := 0
  dst := 0
  len0 := 0
  len1 := 0
  param := 0
  prob := 0
  seed := 0

/-- The machine right after reset (R320), with the default parameters of 00_scope.md R6. `rdata`, `port`,
`sched` and `draws` are the model's own fields (log 3, log 8, log 10). -/
def State.reset : State where
  params := .default
  bm := []
  cmd := 0
  status := .reset
  latch := none
  doneIe := false
  ops := .reset
  outlen := 0
  res0 := 0
  res1 := 0
  tstate := .idle
  t0 := 0
  t1 := 0
  now := 0
  rdata := 0
  port := []
  sched := []
  draws := 0

end Sys2Proof.Machine
end

