-- ==== Sys2Proof/Machine/Flags.lean ====
section
/-! DEFINITION. The STATUS flags and codes (10_state.md R26-R33), who sets and clears them, and the DONE
interrupt (60_exceptions.md R290). -/

namespace Sys2Proof.Machine

/-- STATUS.BUSY: a command is accepted and not yet complete (R27), which is when `L` exists (R43; log 4). -/
def State.busy (s : State) : Bool := s.latch.isSome

/-- ECODE of an error (60_exceptions.md R280). -/
def errorCode : CmdError → BitVec 4
  | .repNNonpos | .hamEncLen | .hamDecLen | .hamDecbLen | .probRange | .metricLen => 1
  | .rsvBits | .badOpcode | .sNotAllowed => 2
  | .src0Range | .src1Range | .dstRange => 3
  | .dstSrc0 => 4
  | .stopNotRunning | .readIdle => 5

/-- ECAUSE of an error (60_exceptions.md R281-R285). -/
def errorCause : CmdError → BitVec 8
  | .repNNonpos => 1
  | .hamEncLen => 2
  | .hamDecLen => 3
  | .hamDecbLen => 4
  | .probRange => 5
  | .metricLen => 6
  | .rsvBits => 1
  | .badOpcode => 2
  | .sNotAllowed => 3
  | .src0Range => 1
  | .src1Range => 2
  | .dstRange => 3
  | .dstSrc0 => 1
  | .stopNotRunning => 1
  | .readIdle => 2

/-- The command error of a word that is no command (60_exceptions.md R282). -/
def illegalError : Illegal → CmdError
  | .rsvBits => .rsvBits
  | .badOpcode => .badOpcode
  | .sNotAllowed => .sNotAllowed

/-- What acceptance does to STATUS besides setting BUSY (40_command_engine.md R120; R28, R29, R32, R33). -/
def statusAccepted (st : Status) : Status :=
  { st with done := false, err := false, ecode := 0, ecause := 0 }

/-- What completion without an error does to STATUS besides clearing BUSY (40_command_engine.md R128). -/
def statusCompleted (st : Status) : Status :=
  { st with done := true, err := false, ecode := 0, ecause := 0 }

/-- What completion with an error does to STATUS besides clearing BUSY (40_command_engine.md R127). -/
def statusFailed (e : CmdError) (st : Status) : Status :=
  { st with done := true, err := true, ecode := errorCode e, ecause := errorCause e }

/-- A host write of STATUS: a 1 in bit 1, 3 or 4 clears DONE, OVR or ACCERR; no other bit is written
(R23, R26, R28, R30, R31). -/
def statusWritten (data : Word) (st : Status) : Status :=
  { st with
    done := st.done && !data.getLsbD 1
    ovr := st.ovr && !data.getLsbD 3
    accerr := st.accerr && !data.getLsbD 4 }

/-- STATUS as the host reads it: the layout of R26, reserved bits 0. -/
def statusWord (busy : Bool) (st : Status) : Word :=
  (0 : BitVec 8) ++ (st.ecause ++ ((0 : BitVec 4) ++ (st.ecode ++ ((0 : BitVec 3) ++
    (BitVec.ofBool st.accerr ++ (BitVec.ofBool st.ovr ++ (BitVec.ofBool st.err ++
      (BitVec.ofBool st.done ++ BitVec.ofBool busy))))))))

/-- The interrupt output, a level (60_exceptions.md R290). -/
def State.irq (s : State) : Bool := s.status.done && s.doneIe

end Sys2Proof.Machine
end

