-- ==== Sys2Proof/Machine/Ops.lean ====
section
/-! DEFINITION. The named operations over memory and registers: the bit memory (20_memory.md R63, R64), and the
life of a command: acceptance, success, error (40_command_engine.md R120, R127, R128). -/

namespace Sys2Proof.Machine

/-- The bit a cell holds, or none if nothing has written it since reset (10_state.md R20, R21). -/
def Memory.get : Memory → Nat → Option Bit
  | [], _ => none
  | (k, v) :: rest, a => if a = k then some v else Memory.get rest a

/-- Write one cell, keeping the canonical form. -/
def Memory.set : Memory → Nat → Bit → Memory
  | [], a, b => [(a, b)]
  | (k, v) :: rest, a, b =>
    if a < k then (a, b) :: (k, v) :: rest
    else if a = k then (a, b) :: rest
    else (k, v) :: Memory.set rest a b

/-- Write a bit sequence from a cell on. -/
def Memory.setBits : Memory → Nat → BitSeq → Memory
  | m, _, [] => m
  | m, a, b :: bs => Memory.setBits (Memory.set m a b) (a + 1) bs

/-- The canonical form: addresses strictly rising. -/
def Memory.wf : Memory → Bool
  | [] => true
  | [_] => true
  | (a, _) :: (b, y) :: rest => decide (a < b) && Memory.wf ((b, y) :: rest)

/-- Every listed cell exists: its address is below the size of the bit memory (10_state.md R20). -/
def Memory.below (n : Nat) (m : Memory) : Bool := m.all fun c => decide (c.1 < n)

/-- What an unlisted cell reads as in MemRead number `k` of a step: a free draw (10_state.md R21; log 2). A MemRead
reads each of its cells once, so each read of an unwritten cell has a draw of its own. -/
def unwrittenBit (draw k a : Nat) : Bit := Config.freeBit draw k a

/-- The stored bit of a cell, none if unwritten. -/
def State.cell (s : State) (a : Nat) : Option Bit := Memory.get s.bm a

/-- A read of one cell, `BM[a]`, in MemRead number `k` of the step (10_state.md R20, R21). -/
def readBit (s : State) (k a : Nat) : Bit := (s.cell a).getD (unwrittenBit s.draws k a)

/-- `MemRead(a, n)`, number `k` of the step (20_memory.md R63). -/
def memRead (s : State) (k a n : Nat) : BitSeq := (List.range n).map fun i => readBit s k (a + i)

/-- `MemWrite(a, n, bits)` with `n = len(bits)` (20_memory.md R64). -/
def memWrite (s : State) (a : Nat) (bits : BitSeq) : State := { s with bm := Memory.setBits s.bm a bits }

/-- Acceptance of a command word while BUSY is 0 (40_command_engine.md R120): the word and the operand registers
are latched. -/
def accept (s : State) (w : Word) : State :=
  { s with cmd := w, latch := some { cmd := w, ops := s.ops }, status := statusAccepted s.status }

/-- A host write of a word to CMD (40_command_engine.md R120; 10_state.md R25). -/
def offerCommand (s : State) (w : Word) : State :=
  if s.busy then { s with status := { s.status with ovr := true } } else accept s w

/-- `raise Error(ECODE, ECAUSE)`: the one way a command ends in an error (40_command_engine.md R127,
60_exceptions.md R287). There is no trap and no return from one (60_exceptions.md R288). -/
def raiseError (e : CmdError) (s : State) : State :=
  { s with outlen := 0, res0 := 0, res1 := 0, status := statusFailed e s.status, latch := none }

/-- `complete(outlen, res0, res1)`: the one way a command ends in success (40_command_engine.md R128). -/
def complete (outlen res0 res1 : Word) (s : State) : State :=
  { s with outlen := outlen, res0 := res0, res1 := res1, status := statusCompleted s.status, latch := none }

/-- An access with no effect is recorded in STATUS.ACCERR (10_state.md R31). -/
def accessError (s : State) : State := { s with status := { s.status with accerr := true } }

/-- A register value written from an unbounded integer (00_scope.md R7: truncated only there). -/
def regValue (n : Nat) : Word := BitVec.ofNat 32 n

end Sys2Proof.Machine
end

