-- ==== Sys2Proof/Machine/Operands.lean ====
section
/-! DEFINITION. How a command reads its latched operands (30_encoding.md R96-R105), its regions and their checks
(20_memory.md R71, R72; 30_encoding.md R99, R100), and the execute step every command goes through
(40_command_engine.md R123). -/

namespace Sys2Proof.Machine

/-- `L0` (R98). -/
def len0Of (L : Operands) : Nat := uint32 L.len0

/-- `L1` (R98). -/
def len1Of (L : Operands) : Nat := uint32 L.len1

/-- The bit address of the first input (R97). -/
def src0At (L : Operands) : Nat := uint32 L.src0

/-- The bit address of the second input (R97). -/
def src1At (L : Operands) : Nat := uint32 L.src1

/-- The bit address of the output (R97). -/
def dstAt (L : Operands) : Nat := uint32 L.dst

/-- The repetition factor `n`, signed (R103). -/
def repFactor (L : Operands) : Int := sint32 L.param

/-- The repetition factor where it is at least 1, the only place it is used (R99, R103). -/
def repCount (L : Operands) : Nat := (repFactor L).toNat

/-- `P`, the channel parameter in units of 2^-31 (R104). -/
def probP (L : Operands) : Nat := uint32 L.prob

/-- The number of bits a command writes from DST when it succeeds, on unbounded integers (R99). -/
def outLen : Instr → Operands → Nat
  | .bpack, L => 8 * ceilDiv (len0Of L) 8
  | .tpack, L => 8 * (len0Of L / 8)
  | .renc, L => len0Of L * repCount L
  | .rdec, L => ceilDiv (len0Of L) (repCount L)
  | .henc, _ => 7
  | .hdec, _ => 4
  | .hencb, L => 7 * ceilDiv (len0Of L) 4
  | .hdecb, L => 4 * (len0Of L / 7)
  | .noise _, L => len0Of L
  | .ber, _ => 0
  | .succ, _ => 0
  | .tstart, _ => 0
  | .tstop, _ => 0
  | .tread, _ => 0

/-- A region is in range (20_memory.md R71; no sum wraps). -/
def inRange (bmBits a n : Nat) : Bool := decide (a + n ≤ bmBits)

/-- Two regions overlap (20_memory.md R72). -/
def overlaps (a n b m : Nat) : Bool :=
  decide (0 < n) && decide (0 < m) && decide (a < b + m) && decide (b < a + n)

/-- What the body of a command that writes an output region produces: the bits and the two result words. -/
structure Output where
  bits : BitSeq
  res0 : Nat
  res1 : Nat
  deriving DecidableEq, Repr

/-- Run a command's checks and body on the latched operands: its error, or its next state (R123). -/
def command (s : State) (body : Operands → Except CmdError State) : Outcome :=
  match s.latch with
  | none => .fault .noCommand
  | some L =>
    match body L.ops with
    | .error e => .next (raiseError e s)
    | .ok t => .next t

/-- A command's own precondition check (R123 step 2), then the rest. -/
def require (ok : Bool) (e : CmdError) (rest : Except CmdError State) : Except CmdError State :=
  if ok then rest else .error e

/-- Steps 3 to 6 of R123 for the nine commands with one input and one output region (R100): the range of the
input, the range of the output, the overlap, then the body: read the input, write the output, complete. -/
def transduce (i : Instr) (s : State) (L : Operands) (f : BitSeq → Output) : Except CmdError State :=
  if !inRange s.params.bmBits (src0At L) (len0Of L) then .error .src0Range
  else if !inRange s.params.bmBits (dstAt L) (outLen i L) then .error .dstRange
  else if overlaps (dstAt L) (outLen i L) (src0At L) (len0Of L) then .error .dstSrc0
  else
    let o := f (memRead s 0 (src0At L) (len0Of L))
    .ok (complete (regValue (outLen i L)) (regValue o.res0) (regValue o.res1) (memWrite s (dstAt L) o.bits))

/-- Steps 3 and 6 of R123 for the two commands with two input regions and no output (R100): the two ranges, in
order, then the comparison; `f` gives RES0. The second MemRead has a number of its own, so that its draws for unwritten
cells are new ones, also where the inputs overlap or coincide (10_state.md R21; 45_metrics.md R251; log 2). -/
def compareRegions (s : State) (L : Operands) (f : BitSeq → BitSeq → Nat) : Except CmdError State :=
  if !inRange s.params.bmBits (src0At L) (len0Of L) then .error .src0Range
  else if !inRange s.params.bmBits (src1At L) (len1Of L) then .error .src1Range
  else
    let r := f (memRead s 0 (src0At L) (len0Of L)) (memRead s 1 (src1At L) (len1Of L))
    .ok (complete 0 (regValue r) (regValue (len0Of L)) s)

/-- Cut a sequence into `count` consecutive groups of up to `n` bits (42_repetition.md R173, 43_hamming.md R196,
R197): group `j` is the bits from `j*n` to `min(j*n + n, len)`. -/
def groups (n count : Nat) (s : BitSeq) : List BitSeq :=
  (List.range count).map fun j => (s.drop (j * n)).take n

/-- `s[i]` (00_scope.md R9); used only for indices below the length. -/
def bitAt (s : BitSeq) (i : Nat) : Bit := s.getD i false

end Sys2Proof.Machine
end

