-- ==== Sys2Proof/Machine/Channel.lean ====
section
/-! DEFINITION. The noisy channel: NOISE (44_channel.md). -/

namespace Sys2Proof.Machine

/-- One step of the default generator's state (R231). -/
def lcgStep (x : Word) : Word := BitVec.ofNat 32 (1664525 * x.toNat + 1013904223)

/-- The default NoiseSource (R231): a draw is the top 31 bits of the new state. -/
def lcg : Config.NoiseSource Word := (id, fun x => ((lcgStep x).extractLsb' 1 31, lcgStep x))

/-- A NoiseSource other than the default one (R230; log 6). -/
def otherSource (k : Nat) : Config.NoiseSource Nat := (Config.otherInit k, Config.otherNext k)

/-- Flip, the flip unit: a draw strictly below `P` inverts the bit (R233). -/
def flip (b : Bit) (u : BitVec 31) (p : Nat) : Bit := b ^^ decide (u.toNat < p)

/-- One draw per position, in ascending position order, from a generator state on (R233). -/
def noiseFrom {S : Type} (next : S → BitVec 31 × S) (p : Nat) : S → BitSeq → BitSeq
  | _, [] => []
  | x, b :: bs => flip b (next x).1 p :: noiseFrom next p (next x).2 bs

/-- The draw `U_i` of a generator from a state on (R233). -/
def drawFrom {S : Type} (next : S → BitVec 31 × S) (x : S) : Nat → BitVec 31
  | 0 => (next x).1
  | i + 1 => drawFrom next (next x).2 i

/-- A call of the channel: a fresh generator state from the seed, then the draws (R232, R233). -/
def applyNoise {S : Type} (src : Config.NoiseSource S) (seed : Word) (p : Nat) (bits : BitSeq) : BitSeq :=
  noiseFrom src.2 p (src.1 seed) bits

/-- The channel of the generator this machine is built with (R6, R230). -/
def channel (sel : Config.NoiseSel) (seed : Word) (p : Nat) (bits : BitSeq) : BitSeq :=
  match sel with
  | .lcg => applyNoise lcg seed p bits
  | .other k => applyNoise (otherSource k) seed p bits

/-- The draw `U_i` of a NOISE command with this seed, for the generator this machine is built with (R232, R233). -/
def noiseDraw (sel : Config.NoiseSel) (seed : Word) (i : Nat) : BitVec 31 :=
  match sel with
  | .lcg => drawFrom lcg.2 (lcg.1 seed) i
  | .other k => drawFrom (otherSource k).2 ((otherSource k).1 seed) i

/-- The number of positions at which two sequences differ (R234, 45_metrics.md R250). -/
def mismatches (a b : BitSeq) : Nat := (a.zip b).countP fun xy => xy.1 != xy.2

/-- Seed selection: SEED, or one fresh draw of Entropy (R232). -/
def noiseSeed (seeded : Bool) (s : State) (L : Operands) : Word :=
  if seeded then L.seed else Config.entropy s.draws

/-- The checks and the body of NOISE (R234). -/
def bodyNoise (seeded : Bool) (s : State) (L : Operands) : Except CmdError State :=
  require (decide (probP L ≤ 0x80000000)) .probRange <|
    transduce (.noise seeded) s L fun bits =>
      let out := channel s.params.noise (noiseSeed seeded s L) (probP L) bits
      { bits := out
        res0 := mismatches out bits
        res1 := 0 }

/-- NOISE (R234). -/
def execNoise (seeded : Bool) (s : State) : Outcome := command s (bodyNoise seeded s)

end Sys2Proof.Machine
end

