-- ==== Sys2Proof/Machine/Conversion.lean ====
section
/-! DEFINITION. Bit/byte conversion: BPACK and TPACK (41_conversion.md). -/

namespace Sys2Proof.Machine

/-- `bits_to_bytes`: the trailing byte is zero-padded (R151). -/
def bitsToBytes (s : BitSeq) : BitSeq := s ++ zeros (8 * ceilDiv s.length 8 - s.length)

/-- `bits_to_text`: the bits of a trailing incomplete byte are dropped (R151). -/
def bitsToText (s : BitSeq) : BitSeq := s.take (8 * (s.length / 8))

/-- The checks and the body of BPACK (R152). -/
def bodyBpack (s : State) (L : Operands) : Except CmdError State :=
  transduce .bpack s L fun bits =>
    { bits := bitsToBytes bits
      res0 := ceilDiv (len0Of L) 8
      res1 := 8 * ceilDiv (len0Of L) 8 - len0Of L }

/-- BPACK (R152). -/
def execBpack (s : State) : Outcome := command s (bodyBpack s)

/-- The checks and the body of TPACK (R153). -/
def bodyTpack (s : State) (L : Operands) : Except CmdError State :=
  transduce .tpack s L fun bits =>
    { bits := bitsToText bits
      res0 := len0Of L / 8
      res1 := len0Of L % 8 }

/-- TPACK (R153). -/
def execTpack (s : State) : Outcome := command s (bodyTpack s)

end Sys2Proof.Machine
end

