-- ==== Sys2Proof/Machine/Hamming.lean ====
section
/-! DEFINITION. The Hamming(7,4) codec: HENC, HDEC, HENCB and HDECB (43_hamming.md). -/

namespace Sys2Proof.Machine

/-- HamEnc4, the encoder unit: 4 data bits in the order of R191, the codeword in the layout of R190 (R192). -/
def hamEnc4 (d : BitSeq) : BitSeq :=
  let d1 := bitAt d 0
  let d2 := bitAt d 1
  let d3 := bitAt d 2
  let d4 := bitAt d 3
  let p1 := d1 ^^ d2 ^^ d4
  let p2 := d1 ^^ d3 ^^ d4
  let p3 := d2 ^^ d3 ^^ d4
  [p1, p2, d1, p3, d2, d3, d4]

/-- The syndrome value of a received codeword, 0 to 7 (R193). -/
def syndrome (c : BitSeq) : Nat :=
  let s1 := bitAt c 0 ^^ bitAt c 2 ^^ bitAt c 4 ^^ bitAt c 6
  let s2 := bitAt c 1 ^^ bitAt c 2 ^^ bitAt c 5 ^^ bitAt c 6
  let s3 := bitAt c 3 ^^ bitAt c 4 ^^ bitAt c 5 ^^ bitAt c 6
  (bitVal s3 <<< 2) ||| (bitVal s2 <<< 1) ||| bitVal s1

/-- Flip the bit at an index (R193, R198). -/
def flipAt (c : BitSeq) (i : Nat) : BitSeq := c.set i (!bitAt c i)

/-- The received codeword after correction (R193). -/
def corrected (c : BitSeq) : BitSeq :=
  if syndrome c ≠ 0 then flipAt c (syndrome c - 1) else c

/-- HamDec7, the decoder unit: the four data bits; its other output is `syndrome` (R193). -/
def hamDec7 (c : BitSeq) : BitSeq :=
  let c' := corrected c
  [bitAt c' 2, bitAt c' 4, bitAt c' 5, bitAt c' 6]

/-- `encode_bits(bits)`: blocks of 4, the last one zero-padded (R196). -/
def hamEncodeBits (s : BitSeq) : BitSeq :=
  let blocks := ceilDiv s.length 4
  (groups 4 blocks (s ++ zeros (4 * blocks - s.length))).flatMap hamEnc4

/-- The blocks of 7 bits that `decode_bits` decodes (R197). -/
def hamBlocks (e : BitSeq) : List BitSeq := groups 7 (e.length / 7) e

/-- `decode_bits(bits)` (R197). -/
def hamDecodeBits (e : BitSeq) : BitSeq := (hamBlocks e).flatMap hamDec7

/-- The checks and the body of HENC (R194). -/
def bodyHenc (s : State) (L : Operands) : Except CmdError State :=
  require (decide (len0Of L = 4)) .hamEncLen <|
    transduce .henc s L fun bits =>
      { bits := hamEnc4 bits
        res0 := 0
        res1 := 1 }

/-- HENC (R194). -/
def execHenc (s : State) : Outcome := command s (bodyHenc s)

/-- The checks and the body of HDEC (R195). -/
def bodyHdec (s : State) (L : Operands) : Except CmdError State :=
  require (decide (len0Of L = 7)) .hamDecLen <|
    transduce .hdec s L fun bits =>
      { bits := hamDec7 bits
        res0 := syndrome bits
        res1 := 1 }

/-- HDEC (R195). -/
def execHdec (s : State) : Outcome := command s (bodyHdec s)

/-- The checks and the body of HENCB (R196). -/
def bodyHencb (s : State) (L : Operands) : Except CmdError State :=
  transduce .hencb s L fun bits =>
    { bits := hamEncodeBits bits
      res0 := 4 * ceilDiv (len0Of L) 4 - len0Of L
      res1 := ceilDiv (len0Of L) 4 }

/-- HENCB (R196). -/
def execHencb (s : State) : Outcome := command s (bodyHencb s)

/-- The checks and the body of HDECB (R197). -/
def bodyHdecb (s : State) (L : Operands) : Except CmdError State :=
  require (decide (len0Of L % 7 = 0)) .hamDecbLen <|
    transduce .hdecb s L fun bits =>
      { bits := hamDecodeBits bits
        res0 := (hamBlocks bits).countP fun c => syndrome c != 0
        res1 := len0Of L / 7 }

/-- HDECB (R197). -/
def execHdecb (s : State) : Outcome := command s (bodyHdecb s)

end Sys2Proof.Machine
end

