-- ==== Sys2Proof/Machine/Metrics.lean ====
section
/-! DEFINITION. The metrics: BER and SUCC (45_metrics.md). -/

namespace Sys2Proof.Machine

/-- The checks and the body of BER (R251). -/
def bodyBer (s : State) (L : Operands) : Except CmdError State :=
  require (decide (len0Of L = len1Of L)) .metricLen <|
    compareRegions s L fun a b => mismatches a b

/-- BER (R251). -/
def execBer (s : State) : Outcome := command s (bodyBer s)

/-- The checks and the body of SUCC (R252). -/
def bodySucc (s : State) (L : Operands) : Except CmdError State :=
  require (decide (len0Of L = len1Of L)) .metricLen <|
    compareRegions s L fun a b => if mismatches a b = 0 then 1 else 0

/-- SUCC (R252). -/
def execSucc (s : State) : Outcome := command s (bodySucc s)

/-- The bit error rate a host reads off a successful BER command's results (R253). -/
def berValue (res0 res1 : Word) : Rat :=
  if res1.toNat = 0 then 0 else (res0.toNat : Rat) / (res1.toNat : Rat)

/-- The success rate a host reads off a successful SUCC command's result (R254). -/
def successRate (res0 : Word) : Rat := if res0 = 1 then 1 else 0

end Sys2Proof.Machine
end

