-- ==== Sys2Proof/Machine/Repetition.lean ====
section
/-! DEFINITION. The repetition codec: RENC and RDEC (42_repetition.md). -/

namespace Sys2Proof.Machine

/-- RepEnc1, the repetition encoder unit (R170). -/
def repEnc1 (b : Bit) (n : Nat) : BitSeq := List.replicate n b

/-- RepVote, the majority voter unit; a tie gives 0 (R171). -/
def repVote (g : BitSeq) : Bit := decide (ones g > g.length - ones g)

/-- A group whose bits are not all equal (R173). -/
def notUnanimous (g : BitSeq) : Bool := decide (0 < ones g) && decide (ones g < g.length)

/-- `encode(bits, n)` (R172). -/
def repEncode (n : Nat) (s : BitSeq) : BitSeq := s.flatMap fun b => repEnc1 b n

/-- The groups of up to `n` bits that `decode` votes on (R173). -/
def repGroups (n : Nat) (e : BitSeq) : List BitSeq := groups n (ceilDiv e.length n) e

/-- `decode(encoded, n)` (R173). -/
def repDecode (n : Nat) (e : BitSeq) : BitSeq := (repGroups n e).map repVote

/-- The checks and the body of RENC (R172). -/
def bodyRenc (s : State) (L : Operands) : Except CmdError State :=
  require (decide (1 ≤ repFactor L)) .repNNonpos <|
    transduce .renc s L fun bits =>
      { bits := repEncode (repCount L) bits
        res0 := 0
        res1 := len0Of L }

/-- RENC (R172). -/
def execRenc (s : State) : Outcome := command s (bodyRenc s)

/-- The checks and the body of RDEC (R173). -/
def bodyRdec (s : State) (L : Operands) : Except CmdError State :=
  require (decide (1 ≤ repFactor L)) .repNNonpos <|
    transduce .rdec s L fun bits =>
      { bits := repDecode (repCount L) bits
        res0 := (repGroups (repCount L) bits).countP notUnanimous
        res1 := ceilDiv (len0Of L) (repCount L) }

/-- RDEC (R173). -/
def execRdec (s : State) : Outcome := command s (bodyRdec s)

end Sys2Proof.Machine
end

