-- ==== Sys2Proof/Machine/Timer.lean ====
section
/-! DEFINITION. The timer: TSTART, TSTOP and TREAD (45_metrics.md R260-R263). -/

namespace Sys2Proof.Machine

/-- Complete with a 64-bit value: the low word in RES0, the high word in RES1 (R260-R262). -/
def completeTicks (v : BitVec 64) (s : State) : State :=
  complete 0 (v.extractLsb' 0 32) (v.extractLsb' 32 32) s

/-- TSTATE as the host reads it (10_state.md R40). -/
def timerCode : TimerState → Word
  | .idle => 0
  | .running => 1
  | .stopped => 2

/-- The checks and the body of TSTART (R260). -/
def bodyTstart (s : State) (_ : Operands) : Except CmdError State :=
  .ok (completeTicks s.now { s with t0 := s.now, tstate := .running })

/-- TSTART (R260). -/
def execTstart (s : State) : Outcome := command s (bodyTstart s)

/-- The checks and the body of TSTOP (R261); the subtraction wraps modulo 2^64 (R263). -/
def bodyTstop (s : State) (_ : Operands) : Except CmdError State :=
  require (decide (s.tstate = .running)) .stopNotRunning <|
    .ok (completeTicks (s.now - s.t0) { s with t1 := s.now, tstate := .stopped })

/-- TSTOP (R261). -/
def execTstop (s : State) : Outcome := command s (bodyTstop s)

/-- The checks and the body of TREAD (R262): the interval so far, or the frozen one; the subtraction
wraps modulo 2^64 (R263). -/
def bodyTread (s : State) (_ : Operands) : Except CmdError State :=
  match s.tstate with
  | .idle => .error .readIdle
  | .running => .ok (completeTicks (s.now - s.t0) s)
  | .stopped => .ok (completeTicks (s.t1 - s.t0) s)

/-- TREAD (R262). -/
def execTread (s : State) : Outcome := command s (bodyTread s)

end Sys2Proof.Machine
end

