-- ==== Sys2Proof/Machine/Dispatch.lean ====
section
/-! DEFINITION. The meaning of each command (30_encoding.md R91): one arm per constructor of Instr. -/

namespace Sys2Proof.Machine

def exec (i : Instr) (s : State) : Host.Outcome State Fault Refusal :=
  match i with
  | .bpack => Sys2Proof.Machine.execBpack s
  | .tpack => Sys2Proof.Machine.execTpack s
  | .renc => Sys2Proof.Machine.execRenc s
  | .rdec => Sys2Proof.Machine.execRdec s
  | .henc => Sys2Proof.Machine.execHenc s
  | .hdec => Sys2Proof.Machine.execHdec s
  | .hencb => Sys2Proof.Machine.execHencb s
  | .hdecb => Sys2Proof.Machine.execHdecb s
  | .noise seeded => Sys2Proof.Machine.execNoise seeded s
  | .ber => Sys2Proof.Machine.execBer s
  | .succ => Sys2Proof.Machine.execSucc s
  | .tstart => Sys2Proof.Machine.execTstart s
  | .tstop => Sys2Proof.Machine.execTstop s
  | .tread => Sys2Proof.Machine.execTread s

end Sys2Proof.Machine
end

