-- ==== Sys2Proof/Machine/Port.lean ====
section
/-! DEFINITION. The host port: the register block (10_state.md R23-R42), the window onto the bit memory
(20_memory.md R60-R67) and one host access (20_memory.md R68). -/

namespace Sys2Proof.Machine

/-- The byte offset of a register (10_state.md R23). -/
def regOffset : Reg → Nat
  | .id => 0x00
  | .cmd => 0x04
  | .status => 0x08
  | .irqen => 0x0C
  | .src0 => 0x10
  | .src1 => 0x14
  | .dst => 0x18
  | .len0 => 0x1C
  | .len1 => 0x20
  | .param => 0x24
  | .prob => 0x28
  | .seed => 0x2C
  | .outlen => 0x30
  | .res0 => 0x34
  | .res1 => 0x38
  | .tstate => 0x3C
  | .bmsize => 0x40

/-- The registers of the register table (10_state.md R23). -/
def allRegs : List Reg :=
  [.id, .cmd, .status, .irqen, .src0, .src1, .dst, .len0, .len1, .param, .prob, .seed,
    .outlen, .res0, .res1, .tstate, .bmsize]

/-- The register at an offset; none where the block is unmapped (10_state.md R23, R42). -/
def regAt (offset : Nat) : Option Reg := allRegs.find? fun r => regOffset r == offset

/-- What a read of a register returns (10_state.md R24-R41). -/
def regRead (s : State) : Reg → Word
  | .id => 0x42530100
  | .cmd => s.cmd
  | .status => statusWord s.busy s.status
  | .irqen => (0 : BitVec 31) ++ BitVec.ofBool s.doneIe
  | .src0 => s.ops.src0
  | .src1 => s.ops.src1
  | .dst => s.ops.dst
  | .len0 => s.ops.len0
  | .len1 => s.ops.len1
  | .param => s.ops.param
  | .prob => s.ops.prob
  | .seed => s.ops.seed
  | .outlen => s.outlen
  | .res0 => s.res0
  | .res1 => s.res1
  | .tstate => timerCode s.tstate
  | .bmsize => regValue s.params.bmBits

/-- What a write of a register does; a write of a read-only register is ignored and sets no error (10_state.md
R23, R25, R26, R34, R35). -/
def regWrite (s : State) (r : Reg) (v : Word) : State :=
  match r with
  | .id => s
  | .cmd => offerCommand s v
  | .status => { s with status := statusWritten v s.status }
  | .irqen => { s with doneIe := v.getLsbD 0 }
  | .src0 => { s with ops := { s.ops with src0 := v } }
  | .src1 => { s with ops := { s.ops with src1 := v } }
  | .dst => { s with ops := { s.ops with dst := v } }
  | .len0 => { s with ops := { s.ops with len0 := v } }
  | .len1 => { s with ops := { s.ops with len1 := v } }
  | .param => { s with ops := { s.ops with param := v } }
  | .prob => { s with ops := { s.ops with prob := v } }
  | .seed => { s with ops := { s.ops with seed := v } }
  | .outlen => s
  | .res0 => s
  | .res1 => s
  | .tstate => s
  | .bmsize => s

/-- The number of bytes of an access (20_memory.md R62). -/
def widthBytes : Width → Nat
  | .w8 => 1
  | .w16 => 2
  | .w32 => 4

/-- Where an access goes (20_memory.md R62, R65, R67). -/
inductive Target where
  /-- A register. -/
  | reg (r : Reg)
  /-- The window, from this bit address on. -/
  | window (bit : Nat)
  /-- Nowhere: unmapped, misaligned, of a width the register block does not take, or the locked window. -/
  | noEffect
  deriving DecidableEq, Repr

/-- All the bytes of an access lie in the window (20_memory.md R60, R65; log 21). -/
def inWindow (p : Config.Params) (w : Width) (addr : Nat) : Bool :=
  decide (p.winBase ≤ addr) && decide (addr + widthBytes w ≤ p.winBase + p.bmBits / 8)

/-- Decode the address of an access (20_memory.md R62, R65-R67; 10_state.md R31, R42). -/
def target (s : State) (w : Width) (a : Word) : Target :=
  if uint32 a % widthBytes w ≠ 0 then .noEffect
  else if uint32 a < 0x100 then
    if w = .w32 then
      match regAt (uint32 a) with
      | some r => .reg r
      | none => .noEffect
    else .noEffect
  else if inWindow s.params w (uint32 a) then
    if s.busy then .noEffect else .window (8 * (uint32 a - s.params.winBase))
  else .noEffect

/-- The value of a sequence whose first bit is the most significant (20_memory.md R61, R62). -/
def packBits (bits : BitSeq) : Nat := bits.foldl (fun acc b => 2 * acc + bitVal b) 0

/-- The low `n` bits of a data word as a sequence, most significant first (20_memory.md R61, R62). -/
def unpackBits (n : Nat) (v : Word) : BitSeq := (List.range n).map fun j => v.getLsbD (n - 1 - j)

/-- A host read: the data returned, and STATUS.ACCERR if the access has no effect (20_memory.md R62, R65, R67,
R68; 10_state.md R31, R42; log 12). -/
def hostRead (s : State) (w : Width) (a : Word) : State :=
  match target s w a with
  | .reg r => { s with rdata := regRead s r }
  | .window bit => { s with rdata := regValue (packBits (memRead s 0 bit (8 * widthBytes w))) }
  | .noEffect => accessError { s with rdata := 0 }

/-- A host write (20_memory.md R62, R65, R67, R68; 10_state.md R31, R42). -/
def hostWrite (s : State) (w : Width) (a data : Word) : State :=
  match target s w a with
  | .reg r => regWrite s r data
  | .window bit => memWrite s bit (unpackBits (8 * widthBytes w) data)
  | .noEffect => accessError s

/-- One host access (20_memory.md R68; log 22). -/
def hostAccess (s : State) : Access → State
  | .read w a => hostRead s w a
  | .write w a data => hostWrite s w a data

/-- The address of a register on the host port (20_memory.md R65). -/
def regAddr (r : Reg) : Word := regValue (regOffset r)

/-- The host's turn: its next access; in a `wait` loop, a read of STATUS that is repeated while bit 1, DONE, of
the value read is 0 (30_encoding.md R107; log 17). With no access to make, nothing changes (log 19). -/
def hostTurn (s : State) : State :=
  match s.port with
  | [] => s
  | .access a :: rest => hostAccess { s with port := rest } a
  | .waitDone :: rest =>
    let t := hostRead s .w32 (regAddr .status)
    if t.rdata.getLsbD 1 then { t with port := rest } else t

end Sys2Proof.Machine
end

