-- ==== Sys2Proof/Machine/Script.lean ====
section
/-! DEFINITION. Host scripts: the notation for programs of the CORE and its pseudo-instructions, as the host
accesses they stand for (30_encoding.md R106, R107). -/

namespace Sys2Proof.Machine

/-- The address of window byte `k` (20_memory.md R60). R106 names window bytes only: where `WIN_BASE + k` reaches 2^32 the
model's choice is the address modulo 2^32, which may be a register's (log 25). -/
def windowAddr (p : Config.Params) (k : Nat) : Word := regValue (p.winBase + k)

/-- `wr REG, v` (R106). -/
def writeReg (r : Reg) (v : Word) : HostOp := .access (.write .w32 (regAddr r) v)

/-- What a script line does on the host port (R106, R107). -/
def lineOps (p : Config.Params) : Line → List HostOp
  | .wr r v => [writeReg r v]
  | .rd r => [.access (.read .w32 (regAddr r))]
  | .wb8 k v => [.access (.write .w8 (windowAddr p k) (v.zeroExtend 32))]
  | .wb16 k v => [.access (.write .w16 (windowAddr p k) (v.zeroExtend 32))]
  | .wb32 k v => [.access (.write .w32 (windowAddr p k) v)]
  | .rb8 k => [.access (.read .w8 (windowAddr p k))]
  | .rb16 k => [.access (.read .w16 (windowAddr p k))]
  | .rb32 k => [.access (.read .w32 (windowAddr p k))]
  | .cmd i => [writeReg .cmd (encode i)]
  | .wait => [.waitDone]
  | .run i => [writeReg .cmd (encode i), .waitDone]
  | .clr => [writeReg .status 0x0000001A]
  | .setup values => values.map fun rv => writeReg rv.1 rv.2

/-- A script given to the host: its accesses follow those it has still to make (10_state.md R39; log 9). -/
def loadScript (s : State) (script : List Line) : State :=
  { s with port := s.port ++ script.flatMap (lineOps s.params) }

end Sys2Proof.Machine
end

