-- ==== Sys2Proof/Machine/Turns.lean ====
section
/-! DEFINITION. The steps of the total order of 20_memory.md R74: the engine's execute step, a time-base step, a
host access, and the `rst` input. -/

namespace Sys2Proof.Machine

/-- The engine's turn: decode the latched word and run it, or raise ILLEGAL_CMD (40_command_engine.md R123 step 1,
R125; 30_encoding.md R92, R95; log 23). With no latched command nothing changes (log 19). -/
def engineTurn (s : State) : Outcome :=
  match s.latch with
  | none => .next s
  | some L =>
    match decode L.cmd with
    | .ok i => exec i s
    | .error e => .next (raiseError (illegalError e) s)

/-- A time-base step (60_exceptions.md R300). -/
def timeBaseTurn (k : BitVec 64) (s : State) : State := { s with now := s.now + k }

/-- A clock edge with `rst` asserted (70_reset_and_hazards.md R320, R323). The parameters, and what is outside the
CORE, keep their values (log 13). -/
def resetTurn (s : State) : State :=
  { State.reset with
    params := s.params, rdata := s.rdata, port := s.port, sched := s.sched, draws := s.draws }

/-- Who moves when the schedule has run out: a busy engine, always enabled (70_reset_and_hazards.md R332), else a
host with an access to make, else the time base, by a free amount (log 8, log 20). -/
def defaultTurn (s : State) : Turn :=
  if s.busy then .engine
  else if s.port.isEmpty then .timeBase (Config.freeTicks s.draws)
  else .host

/-- Take one turn. -/
def takeTurn (turn : Turn) (s : State) : Outcome :=
  match turn with
  | .host => .next (hostTurn s)
  | .engine => engineTurn s
  | .timeBase k => .next (timeBaseTurn k s)
  | .rst => .next (resetTurn s)

/-- Count the step: each step has its own draw number (log 3). -/
def beginStep (s : State) : State := { s with draws := s.draws + 1 }

/-- A state in which the given command word has been accepted with the operand registers as they stand, and the
engine's turn is next (40_command_engine.md R120; log 9). -/
def issued (s : State) (w : Word) : State :=
  { accept s w with sched := .engine :: s.sched }

end Sys2Proof.Machine
end

