-- ==== Sys2Proof/Machine/Step.lean ====
section
/-! DEFINITION. One step of the machine: the next step of the total order of 20_memory.md R74. -/

namespace Sys2Proof.Machine

/-- One step: the turn the schedule names, or, when it has run out, the default turn. -/
def step (s : State) : Host.Outcome State Fault Refusal :=
  match s.sched with
  | [] => takeTurn (defaultTurn (beginStep s)) (beginStep s)
  | turn :: rest => takeTurn turn { beginStep s with sched := rest }

/-- `s` with the command word `w` accepted and its execute step next: the CORE fetches nothing (10_state.md R39), so
this stands for the host's write of `w` to CMD (log 9). -/
def State.withFetchWord (s : State) (nbits w : Nat) : State :=
  issued s (BitVec.ofNat 32 (w % 2 ^ nbits))

end Sys2Proof.Machine
end

