-- ==== Sys2Proof/Safety.lean ====
section
/-! DEFINITION. The terms claims are stated in: what a completed and a failed command look like, what a step leaves
alone, and the invariant of the machine. -/

namespace Sys2Proof.Machine

/-- The pairs (ECODE, ECAUSE) an error may carry, from the tables of 60_exceptions.md R281-R285. -/
def legalErrors : List (Nat × Nat) :=
  [(1, 1), (1, 2), (1, 3), (1, 4), (1, 5), (1, 6), (2, 1), (2, 2), (2, 3), (3, 1), (3, 2), (3, 3), (4, 1),
    (5, 1), (5, 2)]

/-- `t` is `s` with its command completed successfully (40_command_engine.md R128): the three results, BUSY 0, DONE 1,
ERR 0, both codes 0, OVR and ACCERR as before. -/
structure Completed (s t : State) (outlen res0 res1 : Nat) : Prop where
  outlen_eq : t.outlen.toNat = outlen
  res0_eq : t.res0.toNat = res0
  res1_eq : t.res1.toNat = res1
  not_busy : t.busy = false
  latch_none : t.latch = none
  status_eq : t.status = { s.status with done := true, err := false, ecode := 0, ecause := 0 }

/-- `t` is `s` with its command ended in the error (code, cause) (40_command_engine.md R127): results 0, BUSY 0, DONE 1,
ERR 1, the codes, OVR and ACCERR as before. -/
structure Failed (s t : State) (code : BitVec 4) (cause : BitVec 8) : Prop where
  outlen_zero : t.outlen = 0
  res0_zero : t.res0 = 0
  res1_zero : t.res1 = 0
  not_busy : t.busy = false
  latch_none : t.latch = none
  status_eq : t.status = { s.status with done := true, err := true, ecode := code, ecause := cause }

/-- What no command ever changes (40_command_engine.md R126): CMD, IRQEN, the operand registers, the time base, the
parameters, and what lies outside the CORE. -/
structure KeepsRest (s t : State) : Prop where
  params_eq : t.params = s.params
  cmd_eq : t.cmd = s.cmd
  doneIe_eq : t.doneIe = s.doneIe
  ops_eq : t.ops = s.ops
  now_eq : t.now = s.now
  rdata_eq : t.rdata = s.rdata
  port_eq : t.port = s.port
  sched_eq : t.sched = s.sched
  draws_eq : t.draws = s.draws

/-- The timer state is unchanged. -/
structure KeepsTimer (s t : State) : Prop where
  tstate_eq : t.tstate = s.tstate
  t0_eq : t.t0 = s.t0
  t1_eq : t.t1 = s.t1

/-- Every cell outside the region (a, n) holds what it held and reads as it read. -/
def KeepsCells (s t : State) (a n : Nat) : Prop :=
  ∀ x, ¬(a ≤ x ∧ x < a + n) → t.cell x = s.cell x ∧ ∀ k, readBit t k x = readBit s k x

/-- The frame of a command that writes the region (a, n) of the bit memory and no timer state. -/
structure OnlyWrites (s t : State) (a n : Nat) : Prop where
  cells : KeepsCells s t a n
  rest : KeepsRest s t
  timer : KeepsTimer s t

/-- The cells from `a` on hold the sequence `bits`. -/
def Stores (t : State) (a : Nat) (bits : BitSeq) : Prop := ∀ i, i < bits.length → t.cell (a + i) = bits[i]?

/-- The region (a, n) lies in the bit memory (20_memory.md R71). -/
def Fits (s : State) (a n : Nat) : Prop := a + n ≤ s.params.bmBits

/-- Two regions share no cell (20_memory.md R72: a zero-length region overlaps nothing). -/
def Apart (a n b m : Nat) : Prop := n = 0 ∨ m = 0 ∨ b + m ≤ a ∨ a + n ≤ b

/-- The regions of a command with one input and one output region pass every check of 30_encoding.md R100, `n` being
its output length. -/
structure RegionsOk (s : State) (L : Operands) (n : Nat) : Prop where
  input : Fits s L.src0.toNat L.len0.toNat
  output : Fits s L.dst.toNat n
  apart : Apart L.dst.toNat n L.src0.toNat L.len0.toNat

/-- The input bit `i` of a command (20_memory.md R63; 30_encoding.md R97). -/
def inputBit (s : State) (L : Operands) (i : Nat) : Bit := readBit s 0 (L.src0.toNat + i)

/-- Bit `i` of the second input of BER and SUCC: MemRead number 1 of the step (45_metrics.md R251, R252). -/
def secondBit (s : State) (L : Operands) (i : Nat) : Bit := readBit s 1 (L.src1.toNat + i)

/-- The commands with one input and one output region (30_encoding.md R100). -/
def isTransducer : Instr → Bool
  | .bpack | .tpack | .renc | .rdec | .henc | .hdec | .hencb | .hdecb | .noise _ => true
  | .ber | .succ | .tstart | .tstop | .tread => false

/-- The two commands with two input regions (30_encoding.md R100). -/
def isMetric : Instr → Bool
  | .ber | .succ => true
  | .bpack | .tpack | .renc | .rdec | .henc | .hdec | .hencb | .hdecb | .noise _ => false
  | .tstart | .tstop | .tread => false

/-- The timer commands (45_metrics.md R260-R262). -/
def isTimer : Instr → Bool
  | .tstart | .tstop | .tread => true
  | .bpack | .tpack | .renc | .rdec | .henc | .hdec | .hencb | .hdecb | .noise _ => false
  | .ber | .succ => false

/-- The precondition of a command and the ECAUSE of INVALID_PARAM when it fails (60_exceptions.md R281). The timer
commands' own checks are TIMER_STATE errors (R285), not these. -/
def InvalidParam (L : Operands) : Instr → BitVec 8 → Prop
  | .renc, c => c = 1 ∧ L.param.toInt ≤ 0
  | .rdec, c => c = 1 ∧ L.param.toInt ≤ 0
  | .henc, c => c = 2 ∧ L.len0.toNat ≠ 4
  | .hdec, c => c = 3 ∧ L.len0.toNat ≠ 7
  | .hdecb, c => c = 4 ∧ L.len0.toNat % 7 ≠ 0
  | .noise _, c => c = 5 ∧ L.prob.toNat > 0x80000000
  | .ber, c => c = 6 ∧ L.len0.toNat ≠ L.len1.toNat
  | .succ, c => c = 6 ∧ L.len0.toNat ≠ L.len1.toNat
  | .bpack, _ => False
  | .tpack, _ => False
  | .hencb, _ => False
  | .tstart, _ => False
  | .tstop, _ => False
  | .tread, _ => False

/-! ## The results of the commands, written out from their rules -/

/-- Input bit `i` of a sequence padded with zeros (43_hamming.md R196). -/
def paddedBit (s : State) (L : Operands) (i : Nat) : Bit := if i < L.len0.toNat then inputBit s L i else false

/-- Group `j` of the input of RDEC: the bits from `j*n` to `min(j*n + n, L0)` (42_repetition.md R173). -/
def inputGroup (s : State) (L : Operands) (n j : Nat) : BitSeq :=
  memRead s 0 (L.src0.toNat + j * n) (min n (L.len0.toNat - j * n))

/-- The codeword of four data bits (43_hamming.md R190, R192). -/
def codeword (d1 d2 d3 d4 : Bit) : BitSeq :=
  [d1 ^^ d2 ^^ d4, d1 ^^ d3 ^^ d4, d1, d2 ^^ d3 ^^ d4, d2, d3, d4]

/-- The syndrome value 4*s3 + 2*s2 + s1 of seven received bits (43_hamming.md R193; 00_scope.md R10). -/
def syndromeOf (c : Nat → Bit) : Nat :=
  4 * bitVal (c 3 ^^ c 4 ^^ c 5 ^^ c 6) + 2 * bitVal (c 1 ^^ c 2 ^^ c 5 ^^ c 6) + bitVal (c 0 ^^ c 2 ^^ c 4 ^^ c 6)

/-- The data bits decoded from seven received bits: the bit at 1-based position `syndromeOf c` is flipped
(43_hamming.md R193). -/
def decodedOf (c : Nat → Bit) : BitSeq :=
  [c 2 ^^ decide (syndromeOf c = 3), c 4 ^^ decide (syndromeOf c = 5), c 5 ^^ decide (syndromeOf c = 6),
    c 6 ^^ decide (syndromeOf c = 7)]

/-- The draw that meets position `i` of a NOISE command (44_channel.md R232, R233). -/
def commandDraw (s : State) (L : Operands) (seeded : Bool) (i : Nat) : BitVec 31 :=
  noiseDraw s.params.noise (if seeded = true then L.seed else Config.entropy s.draws) i

/-- How many of the indices below `n` have a property. -/
def countBelow (n : Nat) (p : Nat → Bool) : Nat := ((List.range n).filter p).length

/-- The number of positions at which the two inputs of BER and SUCC differ (45_metrics.md R250). -/
def differences (s : State) (L : Operands) : Nat :=
  countBelow L.len0.toNat fun i => inputBit s L i != secondBit s L i

/-- The unwritten cells of the first input whose draws in the two MemReads of BER and SUCC differ (10_state.md R21). -/
def unlikeDraws (s : State) (L : Operands) : Nat :=
  countBelow L.len0.toNat fun i => (s.cell (L.src0.toNat + i)).isNone &&
    (Config.freeBit s.draws 0 (L.src0.toNat + i) != Config.freeBit s.draws 1 (L.src0.toNat + i))

/-- `k` steps of the machine. -/
def run (k : Nat) (s : State) : Outcome := Host.Core.run Sys2Proof.core k s

/-- The invariant of the machine. -/
structure State.Inv (s : State) : Prop where
  /-- The parameters are legal (00_scope.md R6). -/
  params_legal : s.params.wf = true
  /-- The bit memory keeps its canonical form. -/
  memory_sorted : Memory.wf s.bm = true
  /-- Every written cell exists (10_state.md R20). -/
  memory_below : Memory.below s.params.bmBits s.bm = true
  /-- ECODE and ECAUSE are a pair of the tables with ERR, and 0 without (10_state.md R29, R32, R33; 60_exceptions.md R280). -/
  codes_legal : if s.status.err = true
    then (s.status.ecode.toNat, s.status.ecause.toNat) ∈ legalErrors
    else s.status.ecode = 0 ∧ s.status.ecause = 0
  /-- While BUSY, DONE and ERR are 0 (40_command_engine.md R120; 70_reset_and_hazards.md R334). -/
  busy_clear : s.busy = true → s.status.done = false ∧ s.status.err = false
  /-- While BUSY, L.CMD is the accepted word CMD holds (10_state.md R25, R43). -/
  latch_cmd : ∀ L, s.latch = some L → L.cmd = s.cmd
  /-- After an error the results are 0 (40_command_engine.md R127). -/
  error_results : s.status.err = true → s.outlen = 0 ∧ s.res0 = 0 ∧ s.res1 = 0
  /-- OUTLEN never exceeds the size of the bit memory (30_encoding.md R99). -/
  outlen_bound : s.outlen.toNat ≤ s.params.bmBits

end Sys2Proof.Machine
end

