-- ==== Sys2Proof/Certificates/Slice0/Obligations.lean ====
section
/-! DEFINITION. The statements for the provers, in the order of the spec's files. -/

open Sys2Proof Sys2Proof.Machine

/-! ## Command encoding (30_encoding.md) -/

/-- R102: the 15 legal command words and their commands. -/
def Obligations.LegalWordsDecode : Prop :=
  decode 0x00000001 = .ok .bpack ∧ decode 0x00000002 = .ok .tpack ∧ decode 0x00000003 = .ok .renc ∧
  decode 0x00000004 = .ok .rdec ∧ decode 0x00000005 = .ok .henc ∧ decode 0x00000006 = .ok .hdec ∧
  decode 0x00000007 = .ok .hencb ∧ decode 0x00000008 = .ok .hdecb ∧ decode 0x00000009 = .ok (.noise false) ∧
  decode 0x00000109 = .ok (.noise true) ∧ decode 0x0000000A = .ok .ber ∧ decode 0x0000000B = .ok .succ ∧
  decode 0x0000000C = .ok .tstart ∧ decode 0x0000000D = .ok .tstop ∧ decode 0x0000000E = .ok .tread

/-- R90, R91, R95: decode and encode agree on every command and every 32-bit word: a word decodes to a command exactly
if it is that command's word, so a reserved word never executes as another command. -/
def Obligations.DecodesExactlyItsEncoding : Prop :=
  (∀ (w : Word) (i : Instr), decode w = .ok i ↔ w = encode i) ∧
  (∀ i : Instr, i.wf = true ∧ decodeTableWord 32 (encode i).toNat = some i)

/-- R92: every word selects exactly one command or is rejected, RSV first, then the opcode, then S; the legal words
are the 15 values. -/
def Obligations.DecoderChecksInOrder : Prop :=
  ∀ w : Word,
    (w.toNat / 2 ^ 9 ≠ 0 → decode w = .error .rsvBits) ∧
    (w.toNat / 2 ^ 9 = 0 → ¬(1 ≤ w.toNat % 256 ∧ w.toNat % 256 ≤ 14) → decode w = .error .badOpcode) ∧
    (w.toNat / 2 ^ 9 = 0 → 1 ≤ w.toNat % 256 → w.toNat % 256 ≤ 14 → w.getLsbD 8 = true → w.toNat % 256 ≠ 9 →
      decode w = .error .sNotAllowed) ∧
    (w.toNat / 2 ^ 9 = 0 → 1 ≤ w.toNat % 256 → w.toNat % 256 ≤ 14 → (w.getLsbD 8 = true → w.toNat % 256 = 9) →
      ∃ i, decode w = .ok i ∧ (opcode i).toNat = w.toNat % 256 ∧ seedBit i = w.getLsbD 8) ∧
    ((∃ i, decode w = .ok i) ↔ (1 ≤ w.toNat ∧ w.toNat ≤ 14) ∨ w.toNat = 0x109)

/-- R95, R282: executing a word that is no command raises ILLEGAL_CMD with the cause of the first check that fails, and
does nothing else. -/
def Obligations.IllegalWordRaisesIllegalCmd : Prop :=
  ∀ (s : State) (L : Latch) (cause : BitVec 8), s.latch = some L →
    ((L.cmd.toNat / 2 ^ 9 ≠ 0 ∧ cause = 1) ∨
      (L.cmd.toNat / 2 ^ 9 = 0 ∧ (L.cmd.toNat % 256 = 0 ∨ 0x0F ≤ L.cmd.toNat % 256) ∧ cause = 2) ∨
      (L.cmd.toNat / 2 ^ 9 = 0 ∧ 1 ≤ L.cmd.toNat % 256 ∧ L.cmd.toNat % 256 ≤ 0x0E ∧ L.cmd.getLsbD 8 = true ∧
        L.cmd.toNat % 256 ≠ 0x09 ∧ cause = 3)) →
    ∃ t, engineTurn s = .next t ∧ Failed s t 2 cause ∧ OnlyWrites s t 0 0

/-! ## The command engine (40_command_engine.md) and the order of steps (20_memory.md R74) -/

/-- R74: a step is the next step of the order the state holds; where the list has run out, the model's choice (log 8)
is a busy engine first, then the host, then the time base by a free amount (log 20). -/
def Obligations.StepTakesTheNextTurn : Prop :=
  ∀ s : State,
    (∀ turn rest, s.sched = turn :: rest →
      step s = takeTurn turn { s with sched := rest, draws := s.draws + 1 }) ∧
    (s.sched = [] → s.busy = true → step s = engineTurn { s with draws := s.draws + 1 }) ∧
    (s.sched = [] → s.busy = false → s.port ≠ [] → step s = .next (hostTurn { s with draws := s.draws + 1 })) ∧
    (s.sched = [] → s.busy = false → s.port = [] →
      step s = .next { s with now := s.now + Config.freeTicks (s.draws + 1), draws := s.draws + 1 })

/-- R123 step 1, R125: when the latched word decodes to a command, the engine's step is that command's meaning, on the
state with the step taken off the order and counted. The clause for an empty order is the model's choice (log 8: with
no turn listed a busy engine moves), and so is the clause about withFetchWord, which stands for an accepted CMD write
(log 9). -/
def Obligations.StepRunsTheDecodedCommand : Prop :=
  (∀ (s : State) (L : Latch) (i : Instr), s.latch = some L → decode L.cmd = .ok i →
    (∀ rest, s.sched = .engine :: rest → step s = exec i { s with sched := rest, draws := s.draws + 1 }) ∧
    (s.sched = [] → step s = exec i { s with draws := s.draws + 1 })) ∧
  (∀ (s : State) (i : Instr),
    step (s.withFetchWord 32 (encode i).toNat) = exec i { accept s (encode i) with draws := s.draws + 1 })

/-- R120: a word written to CMD is dropped while BUSY, setting only OVR; otherwise it is accepted and the operand
registers are latched. -/
def Obligations.CmdWriteIsAcceptedOrDropped : Prop :=
  ∀ (s : State) (w : Word),
    (s.busy = true → hostAccess s (.write .w32 0x04 w) = { s with status := { s.status with ovr := true } }) ∧
    (s.busy = false → hostAccess s (.write .w32 0x04 w) =
      { s with cmd := w, latch := some { cmd := w, ops := s.ops },
               status := { s.status with done := false, err := false, ecode := 0, ecause := 0 } }) ∧
    (s.busy = false → (hostAccess s (.write .w32 0x04 w)).busy = true)

/-- R121: a write to an operand register does not reach the running command. -/
def Obligations.RunningCommandUsesLatchedOperands : Prop :=
  ∀ (i : Instr) (s t : State) (other : Operands), exec i s = .next t →
    exec i { s with ops := other } = .next { t with ops := other }

/-- R126: what a command may change, over all commands. -/
def Obligations.CommandChangesOnlyItsOwnState : Prop :=
  ∀ (i : Instr) (s t : State) (L : Latch), s.latch = some L → exec i s = .next t →
    KeepsRest s t ∧ t.status.ovr = s.status.ovr ∧ t.status.accerr = s.status.accerr ∧
    (isTimer i = false → KeepsTimer s t) ∧ KeepsCells s t L.ops.dst.toNat (outLen i L.ops)

/-- R127: a command that ends in an error has no other effect than the recorded error, one of those of the tables. -/
def Obligations.FailedCommandHasNoOtherEffect : Prop :=
  ∀ (i : Instr) (s t : State), exec i s = .next t → t.status.err = true →
    ∃ code cause, Failed s t code cause ∧ (code.toNat, cause.toNat) ∈ legalErrors ∧ t.bm = s.bm ∧
      KeepsTimer s t ∧ KeepsRest s t

/-- R125, R127, R128: every latched command ends in its one execute step, whatever its operands. -/
def Obligations.EveryLatchedCommandEnds : Prop :=
  ∀ (i : Instr) (s : State) (L : Latch), s.latch = some L →
    ∃ t, exec i s = .next t ∧ t.latch = none ∧ t.busy = false ∧ t.status.done = true ∧
      (t.status.err = false → t.status.ecode = 0 ∧ t.status.ecause = 0)

/-- R130: the machine never stops: every step of every state answers a next state. -/
def Obligations.StepNeverStops : Prop := ∀ s : State, ∃ t, step s = .next t

/-- R122, R332: an accepted command completes (or is abandoned by a reset) once the engine has its turn, which it has at
the latest when the listed turns have run out (log 8: the model's form of weak fairness). -/
def Obligations.AcceptedCommandCompletes : Prop :=
  ∀ s : State, s.busy = true → ∃ k t, 1 ≤ k ∧ k ≤ s.sched.length + 1 ∧ run k s = .next t ∧ t.busy = false

/-! ## The checks (60_exceptions.md R280-R286) -/

/-- R281: a failed precondition is reported as INVALID_PARAM with its cause, whatever the regions are, and nothing else
is recorded or changed. -/
def Obligations.FailedPreconditionRaisesInvalidParam : Prop :=
  ∀ (i : Instr) (s : State) (L : Latch) (cause : BitVec 8), s.latch = some L → InvalidParam L.ops i cause →
    ∃ t, exec i s = .next t ∧ Failed s t 1 cause ∧ OnlyWrites s t 0 0

/-- R283, R284, and their order (R286, 30_encoding.md R100): after the precondition, the input ranges, then the output
range, then the overlap. -/
def Obligations.RegionErrorsInOrder : Prop :=
  (∀ (i : Instr) (s : State) (L : Latch), s.latch = some L → isTransducer i = true →
    (∀ c, ¬InvalidParam L.ops i c) →
    (¬Fits s L.ops.src0.toNat L.ops.len0.toNat → ∃ t, exec i s = .next t ∧ Failed s t 3 1) ∧
    (Fits s L.ops.src0.toNat L.ops.len0.toNat → ¬Fits s L.ops.dst.toNat (outLen i L.ops) →
      ∃ t, exec i s = .next t ∧ Failed s t 3 3) ∧
    (Fits s L.ops.src0.toNat L.ops.len0.toNat → Fits s L.ops.dst.toNat (outLen i L.ops) →
      ¬Apart L.ops.dst.toNat (outLen i L.ops) L.ops.src0.toNat L.ops.len0.toNat →
      ∃ t, exec i s = .next t ∧ Failed s t 4 1)) ∧
  (∀ (i : Instr) (s : State) (L : Latch), s.latch = some L → isMetric i = true → (∀ c, ¬InvalidParam L.ops i c) →
    (¬Fits s L.ops.src0.toNat L.ops.len0.toNat → ∃ t, exec i s = .next t ∧ Failed s t 3 1) ∧
    (Fits s L.ops.src0.toNat L.ops.len0.toNat → ¬Fits s L.ops.src1.toNat L.ops.len1.toNat →
      ∃ t, exec i s = .next t ∧ Failed s t 3 2))

/-! ## Conversion (41_conversion.md) -/

/-- R152. -/
def Obligations.BpackPadsToWholeBytes : Prop :=
  ∀ (s : State) (L : Latch) (n : Nat), s.latch = some L → s.params.wf = true →
    n = 8 * ceilDiv L.ops.len0.toNat 8 → RegionsOk s L.ops n →
    ∃ t, exec .bpack s = .next t ∧
      Completed s t n (ceilDiv L.ops.len0.toNat 8) (n - L.ops.len0.toNat) ∧
      (∀ i, i < L.ops.len0.toNat → t.cell (L.ops.dst.toNat + i) = some (inputBit s L.ops i)) ∧
      (∀ i, L.ops.len0.toNat ≤ i → i < n → t.cell (L.ops.dst.toNat + i) = some false) ∧
      OnlyWrites s t L.ops.dst.toNat n

/-- R153. -/
def Obligations.TpackDropsThePartialByte : Prop :=
  ∀ (s : State) (L : Latch) (n : Nat), s.latch = some L → s.params.wf = true →
    n = 8 * (L.ops.len0.toNat / 8) → RegionsOk s L.ops n →
    ∃ t, exec .tpack s = .next t ∧
      Completed s t n (L.ops.len0.toNat / 8) (L.ops.len0.toNat % 8) ∧
      (∀ i, i < n → t.cell (L.ops.dst.toNat + i) = some (inputBit s L.ops i)) ∧
      OnlyWrites s t L.ops.dst.toNat n

/-! ## Repetition (42_repetition.md) -/

/-- R172. -/
def Obligations.RencRepeatsEachBit : Prop :=
  ∀ (s : State) (L : Latch) (n : Nat), s.latch = some L → s.params.wf = true →
    L.ops.param.toInt = (n : Int) → 1 ≤ n → RegionsOk s L.ops (L.ops.len0.toNat * n) →
    ∃ t, exec .renc s = .next t ∧
      Completed s t (L.ops.len0.toNat * n) 0 L.ops.len0.toNat ∧
      (∀ i k, i < L.ops.len0.toNat → k < n →
        t.cell (L.ops.dst.toNat + (i * n + k)) = some (inputBit s L.ops i)) ∧
      OnlyWrites s t L.ops.dst.toNat (L.ops.len0.toNat * n)

/-- R173: each group of up to n bits decodes to 1 exactly if it holds more 1s than 0s. -/
def Obligations.RdecVotesPerGroup : Prop :=
  ∀ (s : State) (L : Latch) (n : Nat), s.latch = some L → s.params.wf = true →
    L.ops.param.toInt = (n : Int) → 1 ≤ n → RegionsOk s L.ops (ceilDiv L.ops.len0.toNat n) →
    ∃ t, exec .rdec s = .next t ∧
      Completed s t (ceilDiv L.ops.len0.toNat n)
        (countBelow (ceilDiv L.ops.len0.toNat n) fun j =>
          decide (0 < ones (inputGroup s L.ops n j)) &&
            decide (ones (inputGroup s L.ops n j) < (inputGroup s L.ops n j).length))
        (ceilDiv L.ops.len0.toNat n) ∧
      (∀ j, j < ceilDiv L.ops.len0.toNat n → t.cell (L.ops.dst.toNat + j) =
        some (decide (2 * ones (inputGroup s L.ops n j) > (inputGroup s L.ops n j).length))) ∧
      OnlyWrites s t L.ops.dst.toNat (ceilDiv L.ops.len0.toNat n)

/-- R174: RENC with factor n, then RDEC of its output with factor n, writes the input back, every group unanimous. -/
def Obligations.RepetitionRoundTrip : Prop :=
  ∀ (s t u : State) (L M : Latch) (n : Nat),
    s.latch = some L → s.params.wf = true → L.ops.param.toInt = (n : Int) → 1 ≤ n →
    RegionsOk s L.ops (L.ops.len0.toNat * n) → exec .renc s = .next t →
    u.params = s.params → u.bm = t.bm → u.latch = some M → M.ops.param = L.ops.param →
    M.ops.src0 = L.ops.dst → M.ops.len0.toNat = L.ops.len0.toNat * n → RegionsOk u M.ops L.ops.len0.toNat →
    ∃ v, exec .rdec u = .next v ∧ Completed u v L.ops.len0.toNat 0 L.ops.len0.toNat ∧
      (∀ i, i < L.ops.len0.toNat → v.cell (M.ops.dst.toNat + i) = some (inputBit s L.ops i))

/-- R175: the correction capacity of the voter, and the two facts about ties. -/
def Obligations.MajorityVoteCorrects : Prop :=
  (∀ (b : Bit) (g : BitSeq), 1 ≤ g.length → g.countP (· != b) ≤ (g.length - 1) / 2 → repVote g = b) ∧
  (∀ g : BitSeq, 2 * g.countP (· != false) = g.length → repVote g = false) ∧
  (∀ g : BitSeq, 2 * g.countP (· != true) = g.length → repVote g ≠ true)

/-! ## Hamming (43_hamming.md) -/

/-- R194, with R191 and R192. -/
def Obligations.HencWritesTheCodeword : Prop :=
  ∀ (s : State) (L : Latch), s.latch = some L → s.params.wf = true → L.ops.len0.toNat = 4 →
    RegionsOk s L.ops 7 →
    ∃ t, exec .henc s = .next t ∧ Completed s t 7 0 1 ∧
      Stores t L.ops.dst.toNat
        (codeword (inputBit s L.ops 0) (inputBit s L.ops 1) (inputBit s L.ops 2) (inputBit s L.ops 3)) ∧
      OnlyWrites s t L.ops.dst.toNat 7

/-- R195, with R193: RES0 is the syndrome value, and the bit at that 1-based position is flipped. -/
def Obligations.HdecCorrectsAtTheSyndrome : Prop :=
  ∀ (s : State) (L : Latch), s.latch = some L → s.params.wf = true → L.ops.len0.toNat = 7 →
    RegionsOk s L.ops 4 →
    ∃ t, exec .hdec s = .next t ∧ Completed s t 4 (syndromeOf (inputBit s L.ops)) 1 ∧
      Stores t L.ops.dst.toNat (decodedOf (inputBit s L.ops)) ∧
      OnlyWrites s t L.ops.dst.toNat 4

/-- R196. -/
def Obligations.HencbEncodesEachBlock : Prop :=
  ∀ (s : State) (L : Latch) (B : Nat), s.latch = some L → s.params.wf = true →
    B = ceilDiv L.ops.len0.toNat 4 → RegionsOk s L.ops (7 * B) →
    ∃ t, exec .hencb s = .next t ∧ Completed s t (7 * B) (4 * B - L.ops.len0.toNat) B ∧
      (∀ j, j < B → Stores t (L.ops.dst.toNat + 7 * j)
        (codeword (paddedBit s L.ops (4 * j)) (paddedBit s L.ops (4 * j + 1)) (paddedBit s L.ops (4 * j + 2))
          (paddedBit s L.ops (4 * j + 3)))) ∧
      OnlyWrites s t L.ops.dst.toNat (7 * B)

/-- R197. -/
def Obligations.HdecbDecodesEachBlock : Prop :=
  ∀ (s : State) (L : Latch) (B : Nat), s.latch = some L → s.params.wf = true →
    L.ops.len0.toNat = 7 * B → RegionsOk s L.ops (4 * B) →
    ∃ t, exec .hdecb s = .next t ∧
      Completed s t (4 * B) (countBelow B fun j => syndromeOf (fun k => inputBit s L.ops (7 * j + k)) != 0) B ∧
      (∀ j, j < B → Stores t (L.ops.dst.toNat + 4 * j) (decodedOf fun k => inputBit s L.ops (7 * j + k))) ∧
      OnlyWrites s t L.ops.dst.toNat (4 * B)

/-- R198, R200 (a) and (b): HDEC of the codeword HENC wrote, with no bit flipped (e = 0) or the one at 1-based position
e, returns the data and RES0 = e. -/
def Obligations.HammingCorrectsOneError : Prop :=
  ∀ (s t u : State) (L M : Latch) (e : Nat),
    s.latch = some L → s.params.wf = true → L.ops.len0.toNat = 4 → RegionsOk s L.ops 7 →
    exec .henc s = .next t → e ≤ 7 →
    u.params = s.params → u.latch = some M → M.ops.src0 = L.ops.dst → M.ops.len0.toNat = 7 →
    RegionsOk u M.ops 4 →
    (∀ i, i < 7 → u.cell (L.ops.dst.toNat + i) =
      (t.cell (L.ops.dst.toNat + i)).map fun b => b ^^ decide (i + 1 = e)) →
    ∃ v, exec .hdec u = .next v ∧ Completed u v 4 e 1 ∧
      (∀ i, i < 4 → v.cell (M.ops.dst.toNat + i) = some (inputBit s L.ops i))

/-- R198, R199: the syndrome of a codeword with any set of bits flipped is the XOR of their 1-based positions. -/
def Obligations.SyndromeIsXorOfErrorPositions : Prop :=
  ∀ (d e : BitSeq), d.length = 4 → e.length = 7 →
    syndrome (List.zipWith (· ^^ ·) (hamEnc4 d) e) =
      ((List.range 7).filter fun i => bitAt e i).foldl (fun acc i => acc ^^^ (i + 1)) 0

/-- R200 (c): HDECB of HENCB returns the input padded with zeros to a multiple of 4, with no error found. -/
def Obligations.HammingSequenceRoundTrip : Prop :=
  ∀ (s t u : State) (L M : Latch) (B : Nat),
    s.latch = some L → s.params.wf = true → B = ceilDiv L.ops.len0.toNat 4 → RegionsOk s L.ops (7 * B) →
    exec .hencb s = .next t →
    u.params = s.params → u.bm = t.bm → u.latch = some M → M.ops.src0 = L.ops.dst →
    M.ops.len0.toNat = 7 * B → RegionsOk u M.ops (4 * B) →
    ∃ v, exec .hdecb u = .next v ∧ Completed u v (4 * B) 0 B ∧
      (∀ i, i < 4 * B → v.cell (M.ops.dst.toNat + i) = some (paddedBit s L.ops i))

/-- R201: a change inside one block changes only that block's output. -/
def Obligations.HammingBlocksAreIndependent : Prop :=
  (∀ (a b : BitSeq) (j : Nat), a.length = b.length → (∀ i, i / 7 ≠ j → a[i]? = b[i]?) →
    ∀ k, k / 4 ≠ j → (hamDecodeBits a)[k]? = (hamDecodeBits b)[k]?) ∧
  (∀ (a b : BitSeq) (j : Nat), a.length = b.length → (∀ i, i / 4 ≠ j → a[i]? = b[i]?) →
    ∀ k, k / 7 ≠ j → (hamEncodeBits a)[k]? = (hamEncodeBits b)[k]?)

/-! ## The noisy channel (44_channel.md) -/

/-- R234, with R232 and R233: each position meets its own draw, in ascending order, from SEED or from the entropy draw,
for whichever NoiseSource the machine has. -/
def Obligations.NoiseFlipsBelowTheDraw : Prop :=
  ∀ (s : State) (L : Latch) (seeded : Bool), s.latch = some L → s.params.wf = true →
    L.ops.prob.toNat ≤ 0x80000000 → RegionsOk s L.ops L.ops.len0.toNat →
    ∃ t, exec (.noise seeded) s = .next t ∧
      Completed s t L.ops.len0.toNat
        (countBelow L.ops.len0.toNat fun i =>
          decide ((commandDraw s L.ops seeded i).toNat < L.ops.prob.toNat)) 0 ∧
      (∀ i, i < L.ops.len0.toNat → t.cell (L.ops.dst.toNat + i) =
        some (inputBit s L.ops i ^^ decide ((commandDraw s L.ops seeded i).toNat < L.ops.prob.toNat))) ∧
      OnlyWrites s t L.ops.dst.toNat L.ops.len0.toNat

/-- R232: unseeded NOISE is seeded NOISE with the drawn value as its seed. -/
def Obligations.UnseededNoiseIsSeededByEntropy : Prop :=
  ∀ (s : State) (L : Latch), s.latch = some L →
    exec (.noise false) s =
      exec (.noise true)
        { s with latch := some { L with ops := { L.ops with seed := Config.entropy s.draws } } }

/-- R235: p = 0 copies the input and p = 1 complements it, for every NoiseSource and every seed. -/
def Obligations.NoiseAtProbabilityZeroAndOne : Prop :=
  ∀ (s : State) (L : Latch) (seeded : Bool), s.latch = some L → s.params.wf = true →
    RegionsOk s L.ops L.ops.len0.toNat →
    (L.ops.prob.toNat = 0 → ∃ t, exec (.noise seeded) s = .next t ∧ Completed s t L.ops.len0.toNat 0 0 ∧
      ∀ i, i < L.ops.len0.toNat → t.cell (L.ops.dst.toNat + i) = some (inputBit s L.ops i)) ∧
    (L.ops.prob.toNat = 0x80000000 →
      ∃ t, exec (.noise seeded) s = .next t ∧ Completed s t L.ops.len0.toNat L.ops.len0.toNat 0 ∧
        ∀ i, i < L.ops.len0.toNat → t.cell (L.ops.dst.toNat + i) = some (!inputBit s L.ops i))

/-- R236: two seeded NOISE commands with equal inputs, PROB and SEED write equal outputs and return equal RES0. -/
def Obligations.SeededNoiseIsReproducible : Prop :=
  ∀ (s u : State) (L M : Latch), s.latch = some L → u.latch = some M →
    s.params.wf = true → u.params.wf = true → s.params.noise = u.params.noise →
    L.ops.prob = M.ops.prob → L.ops.seed = M.ops.seed → L.ops.len0 = M.ops.len0 →
    L.ops.prob.toNat ≤ 0x80000000 → RegionsOk s L.ops L.ops.len0.toNat → RegionsOk u M.ops M.ops.len0.toNat →
    (∀ i, i < L.ops.len0.toNat → inputBit s L.ops i = inputBit u M.ops i) →
    ∃ t v, exec (.noise true) s = .next t ∧ exec (.noise true) u = .next v ∧ t.res0 = v.res0 ∧
      ∀ i, i < L.ops.len0.toNat → t.cell (L.ops.dst.toNat + i) = v.cell (M.ops.dst.toNat + i)

/-- R231: the default NoiseSource, and its first draws for seed 0. -/
def Obligations.DefaultNoiseSourceDraws : Prop :=
  (∀ x : Word, lcg.1 x = x ∧ (lcg.2 x).2.toNat = (1664525 * x.toNat + 1013904223) % 2 ^ 32 ∧
    (lcg.2 x).1.toNat = (1664525 * x.toNat + 1013904223) % 2 ^ 32 / 2) ∧
  noiseDraw .lcg 0 0 = 0x1E3779AF

/-! ## Metrics and timer (45_metrics.md) -/

/-- R251, with R250. -/
def Obligations.BerCountsDifferences : Prop :=
  ∀ (s : State) (L : Latch), s.latch = some L → L.ops.len0 = L.ops.len1 →
    Fits s L.ops.src0.toNat L.ops.len0.toNat → Fits s L.ops.src1.toNat L.ops.len1.toNat →
    ∃ t, exec .ber s = .next t ∧ Completed s t 0 (differences s L.ops) L.ops.len0.toNat ∧ OnlyWrites s t 0 0

/-- R252. -/
def Obligations.SuccTestsEquality : Prop :=
  ∀ (s : State) (L : Latch), s.latch = some L → L.ops.len0 = L.ops.len1 →
    Fits s L.ops.src0.toNat L.ops.len0.toNat → Fits s L.ops.src1.toNat L.ops.len1.toNat →
    ∃ t, exec .succ s = .next t ∧
      Completed s t 0 (if differences s L.ops = 0 then 1 else 0) L.ops.len0.toNat ∧
      (t.res0 = 1 ↔ ∀ i, i < L.ops.len0.toNat → inputBit s L.ops i = secondBit s L.ops i) ∧
      OnlyWrites s t 0 0

/-- R255: BER of a region against itself is 0 and SUCC of it is 1 where every cell of the region is written, and both
fail on unequal lengths. Where a cell is unwritten each of the two reads takes a draw of its own (R21), and BER counts the
cells whose two draws differ: that R21 holds there too is how the model reads the rules (log 2). -/
def Obligations.MetricsOfARegionAgainstItself : Prop :=
  ∀ (s : State) (L : Latch), s.latch = some L →
    (L.ops.len0 = L.ops.len1 → L.ops.src0 = L.ops.src1 → Fits s L.ops.src0.toNat L.ops.len0.toNat →
      (∃ t, exec .ber s = .next t ∧ Completed s t 0 (unlikeDraws s L.ops) L.ops.len0.toNat) ∧
      (∃ t, exec .succ s = .next t ∧
        Completed s t 0 (if unlikeDraws s L.ops = 0 then 1 else 0) L.ops.len0.toNat) ∧
      ((∀ i, i < L.ops.len0.toNat → s.cell (L.ops.src0.toNat + i) ≠ none) →
        (∃ t, exec .ber s = .next t ∧ Completed s t 0 0 L.ops.len0.toNat ∧ berValue t.res0 t.res1 = 0) ∧
        (∃ t, exec .succ s = .next t ∧ Completed s t 0 1 L.ops.len0.toNat ∧ successRate t.res0 = 1))) ∧
    (L.ops.len0 ≠ L.ops.len1 →
      (∃ t, exec .ber s = .next t ∧ Failed s t 1 6) ∧ (∃ t, exec .succ s = .next t ∧ Failed s t 1 6))

/-- R260. -/
def Obligations.TstartStartsTheTimer : Prop :=
  ∀ (s : State) (L : Latch), s.latch = some L →
    ∃ t, exec .tstart s = .next t ∧ Completed s t 0 (s.now.toNat % 2 ^ 32) (s.now.toNat / 2 ^ 32) ∧
      t.t0 = s.now ∧ t.tstate = .running ∧ t.t1 = s.t1 ∧ KeepsCells s t 0 0 ∧ KeepsRest s t

/-- R261, with R263: the elapsed time is modulo 2^64. -/
def Obligations.TstopFreezesTheInterval : Prop :=
  ∀ (s : State) (L : Latch), s.latch = some L →
    (s.tstate = .running →
      ∃ t e, exec .tstop s = .next t ∧ e = (s.now.toNat + 2 ^ 64 - s.t0.toNat) % 2 ^ 64 ∧
        Completed s t 0 (e % 2 ^ 32) (e / 2 ^ 32) ∧ t.t1 = s.now ∧ t.tstate = .stopped ∧ t.t0 = s.t0 ∧
        KeepsCells s t 0 0 ∧ KeepsRest s t) ∧
    (s.tstate ≠ .running → ∃ t, exec .tstop s = .next t ∧ Failed s t 5 1 ∧ OnlyWrites s t 0 0)

/-- R262, with R263. -/
def Obligations.TreadReadsTheInterval : Prop :=
  ∀ (s : State) (L : Latch), s.latch = some L →
    (s.tstate = .running →
      ∃ t e, exec .tread s = .next t ∧ e = (s.now.toNat + 2 ^ 64 - s.t0.toNat) % 2 ^ 64 ∧
        Completed s t 0 (e % 2 ^ 32) (e / 2 ^ 32) ∧ OnlyWrites s t 0 0) ∧
    (s.tstate = .stopped →
      ∃ t e, exec .tread s = .next t ∧ e = (s.t1.toNat + 2 ^ 64 - s.t0.toNat) % 2 ^ 64 ∧
        Completed s t 0 (e % 2 ^ 32) (e / 2 ^ 32) ∧ OnlyWrites s t 0 0) ∧
    (s.tstate = .idle → ∃ t, exec .tread s = .next t ∧ Failed s t 5 2 ∧ OnlyWrites s t 0 0)

/-- R260-R262: the interval between a TSTART and a later TSTOP, and the same value at a TREAD after the stop, in any
states that kept the timer state in between. -/
def Obligations.TimerMeasuresStartToStop : Prop :=
  ∀ (s t u v w : State) (M N : Latch), exec .tstart s = .next t →
    u.latch = some M → KeepsTimer t u → exec .tstop u = .next v →
    w.latch = some N → KeepsTimer v w →
    v.res0.toNat + 2 ^ 32 * v.res1.toNat = (u.now.toNat + 2 ^ 64 - s.now.toNat) % 2 ^ 64 ∧
    ∃ x, exec .tread w = .next x ∧ x.res0 = v.res0 ∧ x.res1 = v.res1 ∧ x.status.err = false

/-! ## The bit memory and the host port (10_state.md, 20_memory.md) -/

/-- R63, R64: MemWrite sets exactly the cells of its region and changes nothing but the bit memory, and MemRead reads
the cells in order. -/
def Obligations.MemWriteSetsExactlyItsRegion : Prop :=
  ∀ (s : State) (a : Nat) (bits : BitSeq),
    (∃ m : Memory, memWrite s a bits = { s with bm := m }) ∧
    (∀ i (h : i < bits.length), (memWrite s a bits).cell (a + i) = some bits[i]) ∧
    KeepsCells s (memWrite s a bits) a bits.length ∧
    (∀ k, memRead (memWrite s a bits) k a bits.length = bits) ∧ (∀ k, memRead s k a 0 = []) ∧
    (∀ k n i, i < n → (memRead s k a n)[i]? = some (readBit s k (a + i)))

/-- R62, R61, R60: a window read of N bits is big-endian, MSB first: data bit b is cell
8(A - WIN_BASE) + (N - 1 - b), and nothing but the port's read data changes. That the data stand in the low N bits and
the bits from N on are 0 is the model's choice (log 10, log 11). -/
def Obligations.WindowReadIsBigEndian : Prop :=
  ∀ (s : State) (w : Width) (a : Word), s.params.wf = true → s.busy = false →
    a.toNat % widthBytes w = 0 → s.params.winBase ≤ a.toNat →
    a.toNat < s.params.winBase + s.params.bmBits / 8 →
    ∃ v : Word, hostAccess s (.read w a) = { s with rdata := v } ∧
      (∀ b, b < 8 * widthBytes w →
        v.getLsbD b = readBit s 0 (8 * (a.toNat - s.params.winBase) + (8 * widthBytes w - 1 - b))) ∧
      (∀ b, 8 * widthBytes w ≤ b → v.getLsbD b = false)

/-- R62, R61, R60: a window write of N bits sets exactly the cells of its bytes, data bit b in cell
8(A - WIN_BASE) + (N - 1 - b). -/
def Obligations.WindowWriteIsBigEndian : Prop :=
  ∀ (s : State) (w : Width) (a data : Word), s.params.wf = true → s.busy = false →
    a.toNat % widthBytes w = 0 → s.params.winBase ≤ a.toNat →
    a.toNat < s.params.winBase + s.params.bmBits / 8 →
    ∃ m : Memory, hostAccess s (.write w a data) = { s with bm := m } ∧
      (∀ b, b < 8 * widthBytes w →
        Memory.get m (8 * (a.toNat - s.params.winBase) + (8 * widthBytes w - 1 - b)) = some (data.getLsbD b)) ∧
      KeepsCells s { s with bm := m } (8 * (a.toNat - s.params.winBase)) (8 * widthBytes w)

/-- R31, R42, R62, R65, R67: a misaligned, wrongly sized, unmapped or locked access reads 0, writes nothing and sets
ACCERR, and does nothing else. -/
def Obligations.AccessWithoutEffectSetsAccerr : Prop :=
  ∀ (s : State) (w : Width) (a data : Word), s.params.wf = true →
    (a.toNat % widthBytes w ≠ 0 ∨ (a.toNat < 0x100 ∧ w ≠ .w32) ∨ (0x44 ≤ a.toNat ∧ a.toNat < 0x100) ∨
      (0x100 ≤ a.toNat ∧ a.toNat < s.params.winBase) ∨ s.params.winBase + s.params.bmBits / 8 ≤ a.toNat ∨
      (s.params.winBase ≤ a.toNat ∧ s.busy = true)) →
    hostAccess s (.read w a) = { s with rdata := 0, status := { s.status with accerr := true } } ∧
    hostAccess s (.write w a data) = { s with status := { s.status with accerr := true } }

/-- R68: no host read changes anything but the port's read data and, exactly for an access with no effect, ACCERR (log 12
reads R68 with R31). With legal parameters, an access has no effect exactly if it is misaligned, is a register-block
access that is not 32 bits wide or goes to an unlisted offset, goes to another unmapped address, or goes to the window
while BUSY (R31, R42, R62, R65, R67); so a legal read leaves ACCERR alone. -/
def Obligations.HostReadHasNoSideEffect : Prop :=
  ∀ (s : State) (w : Width) (a : Word),
    (∃ v : Word, hostAccess s (.read w a) =
      { s with rdata := v,
               status := { s.status with accerr := s.status.accerr || decide (target s w a = .noEffect) } }) ∧
    (s.params.wf = true → (target s w a = .noEffect ↔
      a.toNat % widthBytes w ≠ 0 ∨ (a.toNat < 0x100 ∧ w ≠ .w32) ∨ (0x44 ≤ a.toNat ∧ a.toNat < 0x100) ∨
        (0x100 ≤ a.toNat ∧ a.toNat < s.params.winBase) ∨ s.params.winBase + s.params.bmBits / 8 ≤ a.toNat ∨
        (s.params.winBase ≤ a.toNat ∧ s.busy = true)))

/-- R24, R25, R37, R38, R40, R41: what the host reads at each of these offsets. -/
def Obligations.RegisterReadValues : Prop :=
  ∀ s : State,
    hostAccess s (.read .w32 0x00) = { s with rdata := 0x42530100 } ∧
    hostAccess s (.read .w32 0x04) = { s with rdata := s.cmd } ∧
    hostAccess s (.read .w32 0x30) = { s with rdata := s.outlen } ∧
    hostAccess s (.read .w32 0x34) = { s with rdata := s.res0 } ∧
    hostAccess s (.read .w32 0x38) = { s with rdata := s.res1 } ∧
    (∃ v : Word, hostAccess s (.read .w32 0x3C) = { s with rdata := v } ∧
      (v = 0 ↔ s.tstate = .idle) ∧ (v = 1 ↔ s.tstate = .running) ∧ (v = 2 ↔ s.tstate = .stopped)) ∧
    (s.params.wf = true →
      ∃ v : Word, hostAccess s (.read .w32 0x40) = { s with rdata := v } ∧ v.toNat = s.params.bmBits)

/-- R26: the layout of STATUS as the host reads it, reserved bits 0. -/
def Obligations.StatusReadLayout : Prop :=
  ∀ s : State, ∃ v : Word, hostAccess s (.read .w32 0x08) = { s with rdata := v } ∧
    v.getLsbD 0 = s.busy ∧ v.getLsbD 1 = s.status.done ∧ v.getLsbD 2 = s.status.err ∧
    v.getLsbD 3 = s.status.ovr ∧ v.getLsbD 4 = s.status.accerr ∧
    v.extractLsb' 5 3 = 0 ∧ v.extractLsb' 8 4 = s.status.ecode ∧ v.extractLsb' 12 4 = 0 ∧
    v.extractLsb' 16 8 = s.status.ecause ∧ v.extractLsb' 24 8 = 0

/-- R28, R30, R31, R23: a STATUS write clears DONE, OVR and ACCERR where bit 1, 3 or 4 is 1 and changes nothing
else, whatever BUSY is. -/
def Obligations.StatusWriteClearsNamedBits : Prop :=
  ∀ (s : State) (v : Word), ∃ st : Status, hostAccess s (.write .w32 0x08 v) = { s with status := st } ∧
    st.done = (s.status.done && !v.getLsbD 1) ∧ st.ovr = (s.status.ovr && !v.getLsbD 3) ∧
    st.accerr = (s.status.accerr && !v.getLsbD 4) ∧ st.err = s.status.err ∧ st.ecode = s.status.ecode ∧
    st.ecause = s.status.ecause

/-- R35, R34: an operand register is written exactly, at any time, is read back as written, and its write reaches no
other state; IRQEN keeps bit 0 alone. -/
def Obligations.OperandAndIrqenWriteReadBack : Prop :=
  ∀ (s : State) (v : Word),
    hostAccess s (.write .w32 0x10 v) = { s with ops := { s.ops with src0 := v } } ∧
    hostAccess s (.write .w32 0x14 v) = { s with ops := { s.ops with src1 := v } } ∧
    hostAccess s (.write .w32 0x18 v) = { s with ops := { s.ops with dst := v } } ∧
    hostAccess s (.write .w32 0x1C v) = { s with ops := { s.ops with len0 := v } } ∧
    hostAccess s (.write .w32 0x20 v) = { s with ops := { s.ops with len1 := v } } ∧
    hostAccess s (.write .w32 0x24 v) = { s with ops := { s.ops with param := v } } ∧
    hostAccess s (.write .w32 0x28 v) = { s with ops := { s.ops with prob := v } } ∧
    hostAccess s (.write .w32 0x2C v) = { s with ops := { s.ops with seed := v } } ∧
    (∀ a : Word, a ∈ [0x10, 0x14, 0x18, 0x1C, 0x20, 0x24, 0x28, 0x2C] →
      (hostAccess (hostAccess s (.write .w32 a v)) (.read .w32 a)).rdata = v) ∧
    hostAccess s (.write .w32 0x0C v) = { s with doneIe := v.getLsbD 0 } ∧
    (hostAccess (hostAccess s (.write .w32 0x0C v)) (.read .w32 0x0C)).rdata = v &&& 1

/-- R23: a write to a read-only register is ignored and sets no error. -/
def Obligations.ReadOnlyRegistersIgnoreWrites : Prop :=
  ∀ (s : State) (a v : Word), a ∈ [0x00, 0x30, 0x34, 0x38, 0x3C, 0x40] → hostAccess s (.write .w32 a v) = s

/-! ## Interrupt, time base, reset (60_exceptions.md, 70_reset_and_hazards.md) -/

/-- R290: the level of IRQ, and what raises and lowers it. -/
def Obligations.InterruptLevel : Prop :=
  (∀ s : State, s.irq = (s.status.done && s.doneIe)) ∧
  (∀ s t : State, s.busy = true → engineTurn s = .next t → t.irq = s.doneIe) ∧
  (∀ (s : State) (v : Word), v.getLsbD 1 = true → (hostAccess s (.write .w32 0x08 v)).irq = false) ∧
  (∀ (s : State) (w : Word), s.busy = false → (hostAccess s (.write .w32 0x04 w)).irq = false) ∧
  (∀ (s : State) (v : Word), (hostAccess s (.write .w32 0x0C v)).irq = (s.status.done && v.getLsbD 0)) ∧
  State.reset.irq = false

/-- R300: NOW advances by the drawn amount modulo 2^64 in a time-base step, which changes nothing else, and no step but a
time-base step and `rst`, which sets it to 0, changes it. With no turn listed, no busy engine and no host access to make
the model takes a time-base step by a free amount (its choice: log 8, log 20). -/
def Obligations.NowChangesOnlyInTimeBaseSteps : Prop :=
  (∀ (s : State) (k : BitVec 64) (rest : List Turn), s.sched = .timeBase k :: rest →
    ∃ n : BitVec 64, step s = .next { s with now := n, sched := rest, draws := s.draws + 1 } ∧
      n.toNat = (s.now.toNat + k.toNat) % 2 ^ 64) ∧
  (∀ s : State, s.sched = [] → s.busy = false → s.port = [] →
    step s = .next { s with now := s.now + Config.freeTicks (s.draws + 1), draws := s.draws + 1 }) ∧
  (∀ (s t : State) (rest : List Turn), s.sched = .rst :: rest → step s = .next t → t.now = 0) ∧
  (∀ s t : State, (∀ k rest, s.sched ≠ .timeBase k :: rest) → (∀ rest, s.sched ≠ .rst :: rest) →
    (s.sched = [] → s.busy = true ∨ s.port ≠ []) → step s = .next t → t.now = s.now) ∧
  State.reset.now = 0

/-- R320: the values after reset, at power-up and at any clock edge with `rst` asserted. -/
def Obligations.ResetValues : Prop :=
  ∀ t : State, (t = State.reset ∨ ∃ s : State, (∃ rest, s.sched = .rst :: rest) ∧ step s = .next t) →
    t.cmd = 0 ∧ hostAccess t (.read .w32 0x08) = { t with rdata := 0 } ∧
    t.status = { done := false, err := false, ovr := false, accerr := false, ecode := 0, ecause := 0 } ∧
    t.doneIe = false ∧
    t.ops = { src0 := 0, src1 := 0, dst := 0, len0 := 0, len1 := 0, param := 0, prob := 0, seed := 0 } ∧
    t.outlen = 0 ∧ t.res0 = 0 ∧ t.res1 = 0 ∧ t.tstate = .idle ∧ t.t0 = 0 ∧ t.t1 = 0 ∧ t.now = 0 ∧
    t.latch = none ∧ t.busy = false ∧ (∀ x, t.cell x = none) ∧ t.irq = false ∧
    hostAccess t (.read .w32 0x00) = { t with rdata := 0x42530100 } ∧
    (∃ v : Word, hostAccess t (.read .w32 0x40) = { t with rdata := v } ∧
      (t.params.wf = true → v.toNat = t.params.bmBits))

/-- The invariant holds after reset. Its clause on the parameters rests on the model's choice that reset has the default
ones of 00_scope.md R6 (log 5). -/
def Obligations.ResetHasTheInvariant : Prop := State.reset.Inv

/-- Every step of every state keeps the invariant: legal parameters, the canonical form of the bit memory with no cell
beyond BM_BITS, legal error codes, the BUSY, DONE and ERR discipline, zero results after an error. -/
def Obligations.StepKeepsTheInvariant : Prop := ∀ s t : State, s.Inv → step s = .next t → t.Inv

/-- R107, R332: the `wait` loop on a running command ends, with DONE read as 1. The order is the model's default one, with
no turn listed (its choice: log 8), and the loop is one entry of the host's port (log 17). -/
def Obligations.WaitLoopEnds : Prop :=
  ∀ (s : State) (rest : List HostOp), s.busy = true → s.sched = [] → s.port = .waitDone :: rest →
    ∃ t, run 2 s = .next t ∧ t.port = rest ∧ t.rdata.getLsbD 1 = true ∧ t.busy = false ∧ t.status.done = true

/-- R106, R107: the script line `run MN` on an idle machine issues the command, lets it execute once with the operand
registers as they stand, and ends with STATUS read. The order is the model's default one (log 8). -/
def Obligations.RunLineRunsItsCommand : Prop :=
  ∀ (s : State) (i : Instr) (rest : List HostOp), s.busy = false → s.sched = [] →
    s.port = lineOps s.params (.run i) ++ rest →
    ∃ t, exec i { accept s (encode i) with port := .waitDone :: rest, draws := s.draws + 2 } = .next t ∧
      run 3 s = .next { t with port := rest, draws := s.draws + 3, rdata := statusWord false t.status }

/-! ## The host's turn, and reads of the bit memory -/

/-- R68, R74 (a), R107: a step in which the host moves makes the first access of its port and takes it off; in a `wait`
loop it reads STATUS and stays in the loop while DONE is 0; with nothing to make it changes nothing. Holding the host's
accesses as a list, its turn in an empty order and the one-entry loop are the model's choices (log 8, log 17, log 19). -/
def Obligations.HostTurnMakesTheNextAccess : Prop :=
  (∀ (s : State) (turns : List Turn), s.sched = .host :: turns →
    (∀ a rest, s.port = .access a :: rest →
      step s = .next (hostAccess { s with port := rest, sched := turns, draws := s.draws + 1 } a)) ∧
    (∀ rest, s.port = .waitDone :: rest →
      step s = .next { hostAccess { s with sched := turns, draws := s.draws + 1 } (.read .w32 0x08) with
        port := if s.status.done = true then rest else s.port }) ∧
    (s.port = [] → step s = .next { s with sched := turns, draws := s.draws + 1 })) ∧
  (∀ s : State, s.sched = [] → s.busy = false →
    (∀ a rest, s.port = .access a :: rest →
      step s = .next (hostAccess { s with port := rest, draws := s.draws + 1 } a)) ∧
    (∀ rest, s.port = .waitDone :: rest →
      step s = .next { hostAccess { s with draws := s.draws + 1 } (.read .w32 0x08) with
        port := if s.status.done = true then rest else s.port }))

/-- R21, R74: a read returns the bit the cell holds, or, where nothing has written it, a free draw by the step, the
MemRead and the cell; the two MemReads of BER and SUCC have different numbers, so that their draws need not agree, also
where the inputs overlap or coincide (log 2). -/
def Obligations.UnwrittenCellsReadAsFreeDraws : Prop :=
  (∀ (s : State) (k x : Nat) (b : Bit), s.cell x = some b → readBit s k x = b) ∧
  (∀ (s : State) (k x : Nat), s.cell x = none → readBit s k x = Config.freeBit s.draws k x) ∧
  (∀ (s : State) (L : Latch), s.latch = some L → L.ops.len0 = L.ops.len1 →
    Fits s L.ops.src0.toNat L.ops.len0.toNat → Fits s L.ops.src1.toNat L.ops.len1.toNat →
    (∀ i, i < L.ops.len0.toNat →
      s.cell (L.ops.src0.toNat + i) = none ∧ s.cell (L.ops.src1.toNat + i) = none) →
    ∃ t, exec .ber s = .next t ∧ t.res0.toNat = countBelow L.ops.len0.toNat fun i =>
      Config.freeBit s.draws 0 (L.ops.src0.toNat + i) != Config.freeBit s.draws 1 (L.ops.src1.toNat + i))
end

