-- ==== Sys2Proof/Laws/State.lean ====
section
/-! SUPPORT. One lemma per field of State per named update (true by rfl), so that no later proof unfolds a
record update. -/

namespace Sys2Proof.Machine

@[simp] theorem raiseError_params (s : State) (e : CmdError) : (raiseError e s).params = s.params := rfl
@[simp] theorem raiseError_bm (s : State) (e : CmdError) : (raiseError e s).bm = s.bm := rfl
@[simp] theorem raiseError_cmd (s : State) (e : CmdError) : (raiseError e s).cmd = s.cmd := rfl
@[simp] theorem raiseError_status (s : State) (e : CmdError) : (raiseError e s).status = statusFailed e s.status := rfl
@[simp] theorem raiseError_latch (s : State) (e : CmdError) : (raiseError e s).latch = none := rfl
@[simp] theorem raiseError_doneIe (s : State) (e : CmdError) : (raiseError e s).doneIe = s.doneIe := rfl
@[simp] theorem raiseError_ops (s : State) (e : CmdError) : (raiseError e s).ops = s.ops := rfl
@[simp] theorem raiseError_outlen (s : State) (e : CmdError) : (raiseError e s).outlen = 0 := rfl
@[simp] theorem raiseError_res0 (s : State) (e : CmdError) : (raiseError e s).res0 = 0 := rfl
@[simp] theorem raiseError_res1 (s : State) (e : CmdError) : (raiseError e s).res1 = 0 := rfl
@[simp] theorem raiseError_tstate (s : State) (e : CmdError) : (raiseError e s).tstate = s.tstate := rfl
@[simp] theorem raiseError_t0 (s : State) (e : CmdError) : (raiseError e s).t0 = s.t0 := rfl
@[simp] theorem raiseError_t1 (s : State) (e : CmdError) : (raiseError e s).t1 = s.t1 := rfl
@[simp] theorem raiseError_now (s : State) (e : CmdError) : (raiseError e s).now = s.now := rfl
@[simp] theorem raiseError_rdata (s : State) (e : CmdError) : (raiseError e s).rdata = s.rdata := rfl
@[simp] theorem raiseError_port (s : State) (e : CmdError) : (raiseError e s).port = s.port := rfl
@[simp] theorem raiseError_sched (s : State) (e : CmdError) : (raiseError e s).sched = s.sched := rfl
@[simp] theorem raiseError_draws (s : State) (e : CmdError) : (raiseError e s).draws = s.draws := rfl

@[simp] theorem complete_params (s : State) (o a b : Word) : (complete o a b s).params = s.params := rfl
@[simp] theorem complete_bm (s : State) (o a b : Word) : (complete o a b s).bm = s.bm := rfl
@[simp] theorem complete_cmd (s : State) (o a b : Word) : (complete o a b s).cmd = s.cmd := rfl
@[simp] theorem complete_status (s : State) (o a b : Word) : (complete o a b s).status = statusCompleted s.status := rfl
@[simp] theorem complete_latch (s : State) (o a b : Word) : (complete o a b s).latch = none := rfl
@[simp] theorem complete_doneIe (s : State) (o a b : Word) : (complete o a b s).doneIe = s.doneIe := rfl
@[simp] theorem complete_ops (s : State) (o a b : Word) : (complete o a b s).ops = s.ops := rfl
@[simp] theorem complete_outlen (s : State) (o a b : Word) : (complete o a b s).outlen = o := rfl
@[simp] theorem complete_res0 (s : State) (o a b : Word) : (complete o a b s).res0 = a := rfl
@[simp] theorem complete_res1 (s : State) (o a b : Word) : (complete o a b s).res1 = b := rfl
@[simp] theorem complete_tstate (s : State) (o a b : Word) : (complete o a b s).tstate = s.tstate := rfl
@[simp] theorem complete_t0 (s : State) (o a b : Word) : (complete o a b s).t0 = s.t0 := rfl
@[simp] theorem complete_t1 (s : State) (o a b : Word) : (complete o a b s).t1 = s.t1 := rfl
@[simp] theorem complete_now (s : State) (o a b : Word) : (complete o a b s).now = s.now := rfl
@[simp] theorem complete_rdata (s : State) (o a b : Word) : (complete o a b s).rdata = s.rdata := rfl
@[simp] theorem complete_port (s : State) (o a b : Word) : (complete o a b s).port = s.port := rfl
@[simp] theorem complete_sched (s : State) (o a b : Word) : (complete o a b s).sched = s.sched := rfl
@[simp] theorem complete_draws (s : State) (o a b : Word) : (complete o a b s).draws = s.draws := rfl

@[simp] theorem accept_params (s : State) (w : Word) : (accept s w).params = s.params := rfl
@[simp] theorem accept_bm (s : State) (w : Word) : (accept s w).bm = s.bm := rfl
@[simp] theorem accept_cmd (s : State) (w : Word) : (accept s w).cmd = w := rfl
@[simp] theorem accept_status (s : State) (w : Word) : (accept s w).status = statusAccepted s.status := rfl
@[simp] theorem accept_latch (s : State) (w : Word) : (accept s w).latch = some { cmd := w, ops := s.ops } := rfl
@[simp] theorem accept_doneIe (s : State) (w : Word) : (accept s w).doneIe = s.doneIe := rfl
@[simp] theorem accept_ops (s : State) (w : Word) : (accept s w).ops = s.ops := rfl
@[simp] theorem accept_outlen (s : State) (w : Word) : (accept s w).outlen = s.outlen := rfl
@[simp] theorem accept_res0 (s : State) (w : Word) : (accept s w).res0 = s.res0 := rfl
@[simp] theorem accept_res1 (s : State) (w : Word) : (accept s w).res1 = s.res1 := rfl
@[simp] theorem accept_tstate (s : State) (w : Word) : (accept s w).tstate = s.tstate := rfl
@[simp] theorem accept_t0 (s : State) (w : Word) : (accept s w).t0 = s.t0 := rfl
@[simp] theorem accept_t1 (s : State) (w : Word) : (accept s w).t1 = s.t1 := rfl
@[simp] theorem accept_now (s : State) (w : Word) : (accept s w).now = s.now := rfl
@[simp] theorem accept_rdata (s : State) (w : Word) : (accept s w).rdata = s.rdata := rfl
@[simp] theorem accept_port (s : State) (w : Word) : (accept s w).port = s.port := rfl
@[simp] theorem accept_sched (s : State) (w : Word) : (accept s w).sched = s.sched := rfl
@[simp] theorem accept_draws (s : State) (w : Word) : (accept s w).draws = s.draws := rfl

@[simp] theorem memWrite_params (s : State) (a : Nat) (bits : BitSeq) : (memWrite s a bits).params = s.params := rfl
@[simp] theorem memWrite_bm (s : State) (a : Nat) (bits : BitSeq) : (memWrite s a bits).bm = Memory.setBits s.bm a bits := rfl
@[simp] theorem memWrite_cmd (s : State) (a : Nat) (bits : BitSeq) : (memWrite s a bits).cmd = s.cmd := rfl
@[simp] theorem memWrite_status (s : State) (a : Nat) (bits : BitSeq) : (memWrite s a bits).status = s.status := rfl
@[simp] theorem memWrite_latch (s : State) (a : Nat) (bits : BitSeq) : (memWrite s a bits).latch = s.latch := rfl
@[simp] theorem memWrite_doneIe (s : State) (a : Nat) (bits : BitSeq) : (memWrite s a bits).doneIe = s.doneIe := rfl
@[simp] theorem memWrite_ops (s : State) (a : Nat) (bits : BitSeq) : (memWrite s a bits).ops = s.ops := rfl
@[simp] theorem memWrite_outlen (s : State) (a : Nat) (bits : BitSeq) : (memWrite s a bits).outlen = s.outlen := rfl
@[simp] theorem memWrite_res0 (s : State) (a : Nat) (bits : BitSeq) : (memWrite s a bits).res0 = s.res0 := rfl
@[simp] theorem memWrite_res1 (s : State) (a : Nat) (bits : BitSeq) : (memWrite s a bits).res1 = s.res1 := rfl
@[simp] theorem memWrite_tstate (s : State) (a : Nat) (bits : BitSeq) : (memWrite s a bits).tstate = s.tstate := rfl
@[simp] theorem memWrite_t0 (s : State) (a : Nat) (bits : BitSeq) : (memWrite s a bits).t0 = s.t0 := rfl
@[simp] theorem memWrite_t1 (s : State) (a : Nat) (bits : BitSeq) : (memWrite s a bits).t1 = s.t1 := rfl
@[simp] theorem memWrite_now (s : State) (a : Nat) (bits : BitSeq) : (memWrite s a bits).now = s.now := rfl
@[simp] theorem memWrite_rdata (s : State) (a : Nat) (bits : BitSeq) : (memWrite s a bits).rdata = s.rdata := rfl
@[simp] theorem memWrite_port (s : State) (a : Nat) (bits : BitSeq) : (memWrite s a bits).port = s.port := rfl
@[simp] theorem memWrite_sched (s : State) (a : Nat) (bits : BitSeq) : (memWrite s a bits).sched = s.sched := rfl
@[simp] theorem memWrite_draws (s : State) (a : Nat) (bits : BitSeq) : (memWrite s a bits).draws = s.draws := rfl

@[simp] theorem accessError_params (s : State) : (accessError s).params = s.params := rfl
@[simp] theorem accessError_bm (s : State) : (accessError s).bm = s.bm := rfl
@[simp] theorem accessError_cmd (s : State) : (accessError s).cmd = s.cmd := rfl
@[simp] theorem accessError_status (s : State) : (accessError s).status = { s.status with accerr := true } := rfl
@[simp] theorem accessError_latch (s : State) : (accessError s).latch = s.latch := rfl
@[simp] theorem accessError_doneIe (s : State) : (accessError s).doneIe = s.doneIe := rfl
@[simp] theorem accessError_ops (s : State) : (accessError s).ops = s.ops := rfl
@[simp] theorem accessError_outlen (s : State) : (accessError s).outlen = s.outlen := rfl
@[simp] theorem accessError_res0 (s : State) : (accessError s).res0 = s.res0 := rfl
@[simp] theorem accessError_res1 (s : State) : (accessError s).res1 = s.res1 := rfl
@[simp] theorem accessError_tstate (s : State) : (accessError s).tstate = s.tstate := rfl
@[simp] theorem accessError_t0 (s : State) : (accessError s).t0 = s.t0 := rfl
@[simp] theorem accessError_t1 (s : State) : (accessError s).t1 = s.t1 := rfl
@[simp] theorem accessError_now (s : State) : (accessError s).now = s.now := rfl
@[simp] theorem accessError_rdata (s : State) : (accessError s).rdata = s.rdata := rfl
@[simp] theorem accessError_port (s : State) : (accessError s).port = s.port := rfl
@[simp] theorem accessError_sched (s : State) : (accessError s).sched = s.sched := rfl
@[simp] theorem accessError_draws (s : State) : (accessError s).draws = s.draws := rfl

@[simp] theorem beginStep_params (s : State) : (beginStep s).params = s.params := rfl
@[simp] theorem beginStep_bm (s : State) : (beginStep s).bm = s.bm := rfl
@[simp] theorem beginStep_cmd (s : State) : (beginStep s).cmd = s.cmd := rfl
@[simp] theorem beginStep_status (s : State) : (beginStep s).status = s.status := rfl
@[simp] theorem beginStep_latch (s : State) : (beginStep s).latch = s.latch := rfl
@[simp] theorem beginStep_doneIe (s : State) : (beginStep s).doneIe = s.doneIe := rfl
@[simp] theorem beginStep_ops (s : State) : (beginStep s).ops = s.ops := rfl
@[simp] theorem beginStep_outlen (s : State) : (beginStep s).outlen = s.outlen := rfl
@[simp] theorem beginStep_res0 (s : State) : (beginStep s).res0 = s.res0 := rfl
@[simp] theorem beginStep_res1 (s : State) : (beginStep s).res1 = s.res1 := rfl
@[simp] theorem beginStep_tstate (s : State) : (beginStep s).tstate = s.tstate := rfl
@[simp] theorem beginStep_t0 (s : State) : (beginStep s).t0 = s.t0 := rfl
@[simp] theorem beginStep_t1 (s : State) : (beginStep s).t1 = s.t1 := rfl
@[simp] theorem beginStep_now (s : State) : (beginStep s).now = s.now := rfl
@[simp] theorem beginStep_rdata (s : State) : (beginStep s).rdata = s.rdata := rfl
@[simp] theorem beginStep_port (s : State) : (beginStep s).port = s.port := rfl
@[simp] theorem beginStep_sched (s : State) : (beginStep s).sched = s.sched := rfl
@[simp] theorem beginStep_draws (s : State) : (beginStep s).draws = s.draws + 1 := rfl

@[simp] theorem timeBaseTurn_params (s : State) (k : BitVec 64) : (timeBaseTurn k s).params = s.params := rfl
@[simp] theorem timeBaseTurn_bm (s : State) (k : BitVec 64) : (timeBaseTurn k s).bm = s.bm := rfl
@[simp] theorem timeBaseTurn_cmd (s : State) (k : BitVec 64) : (timeBaseTurn k s).cmd = s.cmd := rfl
@[simp] theorem timeBaseTurn_status (s : State) (k : BitVec 64) : (timeBaseTurn k s).status = s.status := rfl
@[simp] theorem timeBaseTurn_latch (s : State) (k : BitVec 64) : (timeBaseTurn k s).latch = s.latch := rfl
@[simp] theorem timeBaseTurn_doneIe (s : State) (k : BitVec 64) : (timeBaseTurn k s).doneIe = s.doneIe := rfl
@[simp] theorem timeBaseTurn_ops (s : State) (k : BitVec 64) : (timeBaseTurn k s).ops = s.ops := rfl
@[simp] theorem timeBaseTurn_outlen (s : State) (k : BitVec 64) : (timeBaseTurn k s).outlen = s.outlen := rfl
@[simp] theorem timeBaseTurn_res0 (s : State) (k : BitVec 64) : (timeBaseTurn k s).res0 = s.res0 := rfl
@[simp] theorem timeBaseTurn_res1 (s : State) (k : BitVec 64) : (timeBaseTurn k s).res1 = s.res1 := rfl
@[simp] theorem timeBaseTurn_tstate (s : State) (k : BitVec 64) : (timeBaseTurn k s).tstate = s.tstate := rfl
@[simp] theorem timeBaseTurn_t0 (s : State) (k : BitVec 64) : (timeBaseTurn k s).t0 = s.t0 := rfl
@[simp] theorem timeBaseTurn_t1 (s : State) (k : BitVec 64) : (timeBaseTurn k s).t1 = s.t1 := rfl
@[simp] theorem timeBaseTurn_now (s : State) (k : BitVec 64) : (timeBaseTurn k s).now = s.now + k := rfl
@[simp] theorem timeBaseTurn_rdata (s : State) (k : BitVec 64) : (timeBaseTurn k s).rdata = s.rdata := rfl
@[simp] theorem timeBaseTurn_port (s : State) (k : BitVec 64) : (timeBaseTurn k s).port = s.port := rfl
@[simp] theorem timeBaseTurn_sched (s : State) (k : BitVec 64) : (timeBaseTurn k s).sched = s.sched := rfl
@[simp] theorem timeBaseTurn_draws (s : State) (k : BitVec 64) : (timeBaseTurn k s).draws = s.draws := rfl

@[simp] theorem statusAccepted_done (st : Status) : (statusAccepted st).done = false := rfl
@[simp] theorem statusAccepted_err (st : Status) : (statusAccepted st).err = false := rfl
@[simp] theorem statusAccepted_ovr (st : Status) : (statusAccepted st).ovr = st.ovr := rfl
@[simp] theorem statusAccepted_accerr (st : Status) : (statusAccepted st).accerr = st.accerr := rfl
@[simp] theorem statusAccepted_ecode (st : Status) : (statusAccepted st).ecode = 0 := rfl
@[simp] theorem statusAccepted_ecause (st : Status) : (statusAccepted st).ecause = 0 := rfl

@[simp] theorem statusCompleted_done (st : Status) : (statusCompleted st).done = true := rfl
@[simp] theorem statusCompleted_err (st : Status) : (statusCompleted st).err = false := rfl
@[simp] theorem statusCompleted_ovr (st : Status) : (statusCompleted st).ovr = st.ovr := rfl
@[simp] theorem statusCompleted_accerr (st : Status) : (statusCompleted st).accerr = st.accerr := rfl
@[simp] theorem statusCompleted_ecode (st : Status) : (statusCompleted st).ecode = 0 := rfl
@[simp] theorem statusCompleted_ecause (st : Status) : (statusCompleted st).ecause = 0 := rfl

@[simp] theorem statusFailed_done (e : CmdError) (st : Status) : (statusFailed e st).done = true := rfl
@[simp] theorem statusFailed_err (e : CmdError) (st : Status) : (statusFailed e st).err = true := rfl
@[simp] theorem statusFailed_ovr (e : CmdError) (st : Status) : (statusFailed e st).ovr = st.ovr := rfl
@[simp] theorem statusFailed_accerr (e : CmdError) (st : Status) : (statusFailed e st).accerr = st.accerr := rfl
@[simp] theorem statusFailed_ecode (e : CmdError) (st : Status) : (statusFailed e st).ecode = errorCode e := rfl
@[simp] theorem statusFailed_ecause (e : CmdError) (st : Status) : (statusFailed e st).ecause = errorCause e := rfl

@[simp] theorem busy_raiseError (s : State) (e : CmdError) : (raiseError e s).busy = false := rfl
@[simp] theorem busy_complete (s : State) (o a b : Word) : (complete o a b s).busy = false := rfl
@[simp] theorem busy_accept (s : State) (w : Word) : (accept s w).busy = true := rfl
@[simp] theorem cell_raiseError (s : State) (e : CmdError) (x : Nat) : (raiseError e s).cell x = s.cell x := rfl
@[simp] theorem cell_complete (s : State) (o a b : Word) (x : Nat) : (complete o a b s).cell x = s.cell x := rfl
@[simp] theorem readBit_complete (s : State) (o a b : Word) (k x : Nat) :
    readBit (complete o a b s) k x = readBit s k x := rfl
@[simp] theorem readBit_raiseError (s : State) (e : CmdError) (k x : Nat) :
    readBit (raiseError e s) k x = readBit s k x := rfl

end Sys2Proof.Machine
end

