-- ==== Sys2Proof/Laws/Memory.lean ====
section
/-! SUPPORT. The bit memory: read after write, and every memory operation keeps the canonical form and the bound. -/

namespace Sys2Proof.Machine

theorem Memory.get_set (m : Memory) (a b : Nat) (v : Bit) :
    Memory.get (Memory.set m a v) b = if b = a then some v else Memory.get m b := by
  induction m with
  | nil => simp [Memory.set, Memory.get]
  | cons c rest ih =>
    obtain ⟨k, w⟩ := c
    by_cases h1 : a < k
    · simp [Memory.set, h1, Memory.get]
    · by_cases h2 : a = k
      · subst h2; simp only [Memory.set, lt_irrefl, if_false, if_true, Memory.get]; split_ifs <;> rfl
      · simp only [Memory.set, h1, h2, if_false, Memory.get, ih]
        by_cases h3 : b = k
        · rw [if_pos h3, if_pos h3, if_neg (by omega)]
        · rw [if_neg h3, if_neg h3]

theorem Memory.get_setBits (m : Memory) (a b : Nat) (bs : BitSeq) :
    Memory.get (Memory.setBits m a bs) b =
      if a ≤ b ∧ b < a + bs.length then bs[b - a]? else Memory.get m b := by
  induction bs generalizing m a with
  | nil => simp [Memory.setBits]
  | cons v rest ih =>
    simp only [Memory.setBits, ih, Memory.get_set, List.length_cons]
    by_cases h : b = a
    · subst h; simp
    · by_cases h2 : a + 1 ≤ b ∧ b < a + 1 + rest.length
      · rw [if_pos h2, if_pos (by omega), show b - a = (b - (a + 1)) + 1 by omega]; simp
      · rw [if_neg h2, if_neg h, if_neg (by omega)]

/-- The head of a written list is the written cell or the old head. -/
theorem Memory.wf_cons_set (k : Nat) (w : Bit) (m : Memory) (a : Nat) (v : Bit)
    (hk : k < a) (hm : Memory.wf ((k, w) :: m) = true) (hs : Memory.wf (Memory.set m a v) = true) :
    Memory.wf ((k, w) :: Memory.set m a v) = true := by
  cases m with
  | nil => simp [Memory.set, Memory.wf, hk]
  | cons c rest =>
    obtain ⟨k2, w2⟩ := c
    simp only [Memory.wf, Bool.and_eq_true, decide_eq_true_eq] at hm
    by_cases h1 : a < k2
    · simpa [Memory.set, h1, Memory.wf, hk] using hs
    · by_cases h2 : a = k2
      · subst h2; simp only [Memory.set, lt_irrefl, if_false, if_true, Memory.wf, hk, decide_true,
          Bool.true_and] at hs ⊢; exact hs
      · simp only [Memory.set, h1, h2, if_false] at hs ⊢
        simp only [Memory.wf, hm.1, decide_true, Bool.true_and]; exact hs

theorem Memory.wf_tail (c : Nat × Bit) (m : Memory) (h : Memory.wf (c :: m) = true) : Memory.wf m = true := by
  cases m with
  | nil => rfl
  | cons d rest =>
    obtain ⟨a, x⟩ := c
    obtain ⟨b, y⟩ := d
    simp only [Memory.wf, Bool.and_eq_true] at h
    exact h.2

theorem Memory.wf_set (m : Memory) (a : Nat) (v : Bit) (h : Memory.wf m = true) :
    Memory.wf (Memory.set m a v) = true := by
  induction m with
  | nil => rfl
  | cons c rest ih =>
    have ht := Memory.wf_tail c rest h
    obtain ⟨k, w⟩ := c
    by_cases h1 : a < k
    · simp [Memory.set, h1, Memory.wf, h]
    · by_cases h2 : a = k
      · subst h2
        cases rest with
        | nil => simp [Memory.set, Memory.wf]
        | cons d rest2 => obtain ⟨b, y⟩ := d; simpa [Memory.set, Memory.wf] using h
      · have : Memory.set ((k, w) :: rest) a v = (k, w) :: Memory.set rest a v := by
          simp [Memory.set, h1, h2]
        rw [this]
        exact Memory.wf_cons_set k w rest a v (by omega) h (ih ht)

theorem Memory.wf_setBits (m : Memory) (a : Nat) (bs : BitSeq) (h : Memory.wf m = true) :
    Memory.wf (Memory.setBits m a bs) = true := by
  induction bs generalizing m a with
  | nil => exact h
  | cons v rest ih => exact ih _ _ (Memory.wf_set m a v h)

theorem Memory.below_set (n : Nat) (m : Memory) (a : Nat) (v : Bit) (ha : a < n)
    (h : Memory.below n m = true) : Memory.below n (Memory.set m a v) = true := by
  simp only [Memory.below] at h ⊢
  induction m with
  | nil => simp [Memory.set, ha]
  | cons c rest ih =>
    obtain ⟨k, w⟩ := c
    simp only [List.all_cons, Bool.and_eq_true, decide_eq_true_eq] at h
    simp only [Memory.set]
    split_ifs
    · simp [ha, h.1]; simpa using h.2
    · simp [ha]; simpa using h.2
    · simp [h.1]; simpa using ih h.2

theorem Memory.below_setBits (n : Nat) (m : Memory) (a : Nat) (bs : BitSeq) (ha : a + bs.length ≤ n)
    (h : Memory.below n m = true) : Memory.below n (Memory.setBits m a bs) = true := by
  induction bs generalizing m a with
  | nil => exact h
  | cons v rest ih =>
    simp only [List.length_cons] at ha
    exact ih _ _ (by omega) (Memory.below_set n m a v (by omega) h)

/-- The stored bits after a write (20_memory.md R64). -/
theorem cell_memWrite (s : State) (a x : Nat) (bits : BitSeq) :
    (memWrite s a bits).cell x =
      if a ≤ x ∧ x < a + bits.length then bits[x - a]? else s.cell x :=
  Memory.get_setBits s.bm a x bits

theorem cell_memWrite_inside (s : State) (a i : Nat) (bits : BitSeq) (h : i < bits.length) :
    (memWrite s a bits).cell (a + i) = bits[i]? := by
  rw [cell_memWrite, if_pos (by omega)]; congr 1; omega

theorem cell_memWrite_outside (s : State) (a x : Nat) (bits : BitSeq) (h : ¬(a ≤ x ∧ x < a + bits.length)) :
    (memWrite s a bits).cell x = s.cell x := by
  rw [cell_memWrite, if_neg h]

/-- A read of a cell outside the written region is unchanged, drawn or stored. -/
theorem readBit_memWrite_outside (s : State) (k a x : Nat) (bits : BitSeq)
    (h : ¬(a ≤ x ∧ x < a + bits.length)) : readBit (memWrite s a bits) k x = readBit s k x := by
  simp only [readBit, cell_memWrite_outside s a x bits h, memWrite_draws]

theorem readBit_memWrite_inside (s : State) (k a i : Nat) (bits : BitSeq) (h : i < bits.length) :
    readBit (memWrite s a bits) k (a + i) = bits[i] := by
  simp [readBit, cell_memWrite_inside s a i bits h, h]

/-- Two states that hold the same bits and are at the same draw read the same. -/
theorem readBit_congr (s t : State) (k x : Nat) (hb : t.cell x = s.cell x) (hd : t.draws = s.draws) :
    readBit t k x = readBit s k x := by
  simp only [readBit, hb, hd]

@[simp] theorem memRead_length (s : State) (k a n : Nat) : (memRead s k a n).length = n := by simp [memRead]

theorem memRead_getElem (s : State) (k a n i : Nat) (h : i < (memRead s k a n).length) :
    (memRead s k a n)[i] = readBit s k (a + i) := by simp [memRead]

theorem bitAt_memRead (s : State) (k a n i : Nat) (h : i < n) :
    bitAt (memRead s k a n) i = readBit s k (a + i) := by
  simp [bitAt, memRead, h]

theorem memRead_congr (s t : State) (k a n : Nat) (h : ∀ i, i < n → readBit t k (a + i) = readBit s k (a + i)) :
    memRead t k a n = memRead s k a n := by
  simp only [memRead]
  exact List.map_congr_left fun i hi => h i (List.mem_range.mp hi)

end Sys2Proof.Machine
end

