-- ==== Sys2Proof/Laws/Commands.lean ====
section
/-! SUPPORT. What the execute step of a command can do, said once: the outputs' lengths, the shared checks, and one
inversion lemma for `exec`. -/

namespace Sys2Proof.Machine

/-! ## Lengths of the outputs -/

theorem ceilDiv_mul_ge (a b : Nat) (hb : 0 < b) : a ≤ b * ceilDiv a b := by
  unfold ceilDiv
  have h1 := Nat.div_add_mod (a + b - 1) b
  have h2 := Nat.mod_lt (a + b - 1) hb
  omega

theorem bitsToBytes_length (s : BitSeq) : (bitsToBytes s).length = 8 * ceilDiv s.length 8 := by
  have := ceilDiv_mul_ge s.length 8 (by omega)
  simp only [bitsToBytes, zeros, List.length_append, List.length_replicate]; omega

theorem bitsToText_length (s : BitSeq) : (bitsToText s).length = 8 * (s.length / 8) := by
  simp only [bitsToText, List.length_take]; omega

theorem repEncode_length (n : Nat) (s : BitSeq) : (repEncode n s).length = s.length * n := by
  simp [repEncode, repEnc1, List.length_flatMap]

@[simp] theorem groups_length (n count : Nat) (s : BitSeq) : (groups n count s).length = count := by simp [groups]

theorem repDecode_length (n : Nat) (e : BitSeq) : (repDecode n e).length = ceilDiv e.length n := by
  simp [repDecode, repGroups]

@[simp] theorem hamEnc4_length (d : BitSeq) : (hamEnc4 d).length = 7 := rfl

@[simp] theorem hamDec7_length (c : BitSeq) : (hamDec7 c).length = 4 := rfl

theorem flatMap_length_const {α : Type} (l : List α) (f : α → BitSeq) (k : Nat) (h : ∀ x, (f x).length = k) :
    (l.flatMap f).length = k * l.length := by
  induction l with
  | nil => rfl
  | cons a l ih => simp [List.flatMap_cons, ih, h, Nat.mul_add, Nat.add_comm]

theorem hamEncodeBits_length (s : BitSeq) : (hamEncodeBits s).length = 7 * ceilDiv s.length 4 := by
  rw [hamEncodeBits, flatMap_length_const _ _ 7 hamEnc4_length, groups_length]

theorem hamDecodeBits_length (e : BitSeq) : (hamDecodeBits e).length = 4 * (e.length / 7) := by
  rw [hamDecodeBits, flatMap_length_const _ _ 4 hamDec7_length, hamBlocks, groups_length]

@[simp] theorem noiseFrom_length {S : Type} (next : S → BitVec 31 × S) (p : Nat) (x : S) (b : BitSeq) :
    (noiseFrom next p x b).length = b.length := by
  induction b generalizing x with
  | nil => rfl
  | cons v rest ih => simp [noiseFrom, ih]

@[simp] theorem channel_length (sel : Config.NoiseSel) (seed : Word) (p : Nat) (b : BitSeq) :
    (channel sel seed p b).length = b.length := by
  cases sel <;> simp [channel, applyNoise]

/-- Group `j` read through the whole sequence: bit `k` of it is bit `j*n + k`. -/
theorem groups_getElem (n count : Nat) (s : BitSeq) (j : Nat) (h : j < (groups n count s).length) :
    (groups n count s)[j] = (s.drop (j * n)).take n := by simp [groups]

/-! ## The channel -/

/-- Position `i` of the channel's output (44_channel.md R233). -/
theorem noiseFrom_getElem? {S : Type} (next : S → BitVec 31 × S) (p : Nat) (x : S) (b : BitSeq) (i : Nat) :
    (noiseFrom next p x b)[i]? = b[i]?.map fun v => flip v (drawFrom next x i) p := by
  induction b generalizing x i with
  | nil => rfl
  | cons v rest ih => cases i with
    | zero => rfl
    | succ i => simpa [noiseFrom, drawFrom] using ih (next x).2 i

theorem channel_getElem? (sel : Config.NoiseSel) (seed : Word) (p : Nat) (b : BitSeq) (i : Nat) :
    (channel sel seed p b)[i]? = b[i]?.map fun v => flip v (noiseDraw sel seed i) p := by
  cases sel <;> exact noiseFrom_getElem? _ p _ b i

/-! ## The checks -/

theorem inRange_iff (m a n : Nat) : inRange m a n = true ↔ a + n ≤ m := by simp [inRange]

/-- The overlap test of 20_memory.md R72 and its plain negation. -/
theorem overlaps_eq_false_iff (a n b m : Nat) : overlaps a n b m = false ↔ Apart a n b m := by
  rw [← Bool.not_eq_true]
  simp only [overlaps, Apart, Bool.and_eq_true, decide_eq_true_eq]
  omega

theorem regValue_toNat (n : Nat) (h : n < 2 ^ 32) : (regValue n).toNat = n := by
  rw [regValue, BitVec.toNat_ofNat, Nat.mod_eq_of_lt h]

/-- `command` on a state with a latched command. -/
theorem command_eq (s : State) (L : Latch) (body : Operands → Except CmdError State) (h : s.latch = some L) :
    command s body =
      match body L.ops with
      | .error e => .next (raiseError e s)
      | .ok t => .next t := by
  cases hb : body L.ops <;> simp only [command, h, hb]

theorem command_ok (s t : State) (L : Latch) (body : Operands → Except CmdError State) (h : s.latch = some L)
    (hb : body L.ops = .ok t) : command s body = .next t := by
  simp only [command, h, hb]

theorem command_error (s : State) (L : Latch) (e : CmdError) (body : Operands → Except CmdError State)
    (h : s.latch = some L) (hb : body L.ops = .error e) : command s body = .next (raiseError e s) := by
  simp only [command, h, hb]

/-- Everything `command` can do when it answers a next state. -/
theorem command_cases (s t : State) (body : Operands → Except CmdError State) (h : command s body = .next t) :
    ∃ L, s.latch = some L ∧ (body L.ops = .ok t ∨ ∃ e, body L.ops = .error e ∧ t = raiseError e s) := by
  cases hl : s.latch with
  | none => simp [command, hl] at h
  | some L =>
    rw [command_eq s L body hl] at h
    cases hb : body L.ops with
    | error e => rw [hb] at h; exact ⟨L, rfl, .inr ⟨e, hb, by injection h with h; exact h.symm⟩⟩
    | ok u => rw [hb] at h; injection h with h; subst h; exact ⟨L, rfl, .inl hb⟩

theorem require_true (e : CmdError) (rest : Except CmdError State) : require true e rest = rest := rfl

theorem require_false (e : CmdError) (rest : Except CmdError State) : require false e rest = .error e := rfl

/-- A passed precondition. -/
theorem require_ok (ok : Bool) (e : CmdError) (rest : Except CmdError State) (t : State)
    (h : require ok e rest = .ok t) : ok = true ∧ rest = .ok t := by
  cases ok with
  | false => simp [require] at h
  | true => exact ⟨rfl, h⟩

/-- The state a command with one input and one output region completes in. -/
def transduced (i : Instr) (s : State) (L : Operands) (o : Output) : State :=
  complete (regValue (outLen i L)) (regValue o.res0) (regValue o.res1) (memWrite s (dstAt L) o.bits)

/-- The state a comparison of two regions completes in. -/
def compared (s : State) (L : Operands) (r : Nat) : State := complete 0 (regValue r) (regValue (len0Of L)) s

theorem transduce_ok (i : Instr) (s : State) (L : Operands) (f : BitSeq → Output)
    (h : RegionsOk s L (outLen i L)) :
    transduce i s L f = .ok (transduced i s L (f (memRead s 0 (src0At L) (len0Of L)))) := by
  have h1 : inRange s.params.bmBits (src0At L) (len0Of L) = true := (inRange_iff ..).2 h.input
  have h2 : inRange s.params.bmBits (dstAt L) (outLen i L) = true := (inRange_iff ..).2 h.output
  have h3 : overlaps (dstAt L) (outLen i L) (src0At L) (len0Of L) = false := (overlaps_eq_false_iff ..).2 h.apart
  simp only [transduce, h1, h2, h3, Bool.not_true, Bool.false_eq_true, if_false]
  rfl

/-- If `transduce` succeeds, every check passed and the state is the completed one. -/
theorem transduce_inv (i : Instr) (s t : State) (L : Operands) (f : BitSeq → Output)
    (h : transduce i s L f = .ok t) :
    RegionsOk s L (outLen i L) ∧ t = transduced i s L (f (memRead s 0 (src0At L) (len0Of L))) := by
  unfold transduce at h
  split_ifs at h with h1 h2 h3
  injection h with h
  rw [Bool.not_eq_true, Bool.not_eq_false'] at h1 h2
  rw [Bool.not_eq_true] at h3
  exact ⟨⟨(inRange_iff ..).1 h1, (inRange_iff ..).1 h2, (overlaps_eq_false_iff ..).1 h3⟩, h.symm⟩

theorem compareRegions_ok (s : State) (L : Operands) (f : BitSeq → BitSeq → Nat)
    (h0 : Fits s L.src0.toNat L.len0.toNat) (h1 : Fits s L.src1.toNat L.len1.toNat) :
    compareRegions s L f =
      .ok (compared s L (f (memRead s 0 (src0At L) (len0Of L)) (memRead s 1 (src1At L) (len1Of L)))) := by
  have h1' : inRange s.params.bmBits (src0At L) (len0Of L) = true := (inRange_iff ..).2 h0
  have h2' : inRange s.params.bmBits (src1At L) (len1Of L) = true := (inRange_iff ..).2 h1
  simp only [compareRegions, h1', h2', Bool.not_true, Bool.false_eq_true, if_false]
  rfl

theorem compareRegions_inv (s t : State) (L : Operands) (f : BitSeq → BitSeq → Nat)
    (h : compareRegions s L f = .ok t) : ∃ r, t = compared s L r := by
  unfold compareRegions at h
  split_ifs at h
  injection h with h
  exact ⟨_, h.symm⟩

/-! ## What `exec` can do -/

/-- The state a command completes in: its output bits written from DST, its timer effect, its results. -/
def finished (i : Instr) (s : State) (L : Operands) (bits : BitSeq) (r0 r1 : Word) (ts : TimerState)
    (a b : BitVec 64) : State :=
  complete (regValue (outLen i L)) r0 r1 { memWrite s (dstAt L) bits with tstate := ts, t0 := a, t1 := b }

/-- How a command ends when it does not end in an error. -/
def Finishes (i : Instr) (s t : State) (L : Operands) : Prop :=
  ∃ bits r0 r1 ts a b, bits.length = outLen i L ∧ (outLen i L = 0 ∨ Fits s L.dst.toNat (outLen i L)) ∧
    (isTimer i = false → ts = s.tstate ∧ a = s.t0 ∧ b = s.t1) ∧ t = finished i s L bits r0 r1 ts a b

theorem finishes_of_transduce (i : Instr) (s t : State) (L : Operands) (f : BitSeq → Output)
    (hf : ∀ b : BitSeq, b.length = len0Of L → (f b).bits.length = outLen i L)
    (h : transduce i s L f = .ok t) : Finishes i s t L := by
  obtain ⟨hr, rfl⟩ := transduce_inv i s t L f h
  exact ⟨_, _, _, s.tstate, s.t0, s.t1, hf _ (memRead_length ..), .inr hr.output, fun _ => ⟨rfl, rfl, rfl⟩, rfl⟩

theorem finishes_of_no_output (i : Instr) (s : State) (L : Operands) (r0 r1 : Word) (ts : TimerState)
    (a b : BitVec 64) (h0 : outLen i L = 0) (ht : isTimer i = false → ts = s.tstate ∧ a = s.t0 ∧ b = s.t1) :
    Finishes i s (complete 0 r0 r1 { s with tstate := ts, t0 := a, t1 := b }) L := by
  refine ⟨[], r0, r1, ts, a, b, by simp [h0], .inl h0, ht, ?_⟩
  simp [finished, h0, regValue, memWrite, Memory.setBits]

/-- The checks and the body of each command. -/
def bodyOf : Instr → State → Operands → Except CmdError State
  | .bpack => bodyBpack
  | .tpack => bodyTpack
  | .renc => bodyRenc
  | .rdec => bodyRdec
  | .henc => bodyHenc
  | .hdec => bodyHdec
  | .hencb => bodyHencb
  | .hdecb => bodyHdecb
  | .noise seeded => bodyNoise seeded
  | .ber => bodyBer
  | .succ => bodySucc
  | .tstart => bodyTstart
  | .tstop => bodyTstop
  | .tread => bodyTread

/-- Every command is its checks and body, run on the latched operands. -/
theorem exec_eq_command (i : Instr) (s : State) : exec i s = command s (bodyOf i s) := by
  cases i <;> rfl

theorem exec_ok (i : Instr) (s t : State) (L : Latch) (h : s.latch = some L) (hb : bodyOf i s L.ops = .ok t) :
    exec i s = .next t := by
  rw [exec_eq_command, command_ok s t L _ h hb]

theorem exec_error (i : Instr) (s : State) (L : Latch) (e : CmdError) (h : s.latch = some L)
    (hb : bodyOf i s L.ops = .error e) : exec i s = .next (raiseError e s) := by
  rw [exec_eq_command, command_error s L e _ h hb]

/-- A command that succeeds finishes. -/
theorem finishes_of_body (i : Instr) (s u : State) (L : Operands) (hu : bodyOf i s L = .ok u) :
    Finishes i s u L := by
  cases i with
  | bpack =>
    exact finishes_of_transduce _ s u L _ (fun b hb => by rw [bitsToBytes_length, hb]; rfl)
      (show bodyBpack s L = _ from hu)
  | tpack =>
    exact finishes_of_transduce _ s u L _ (fun b hb => by rw [bitsToText_length, hb]; rfl)
      (show bodyTpack s L = _ from hu)
  | renc =>
    exact finishes_of_transduce _ s u L _ (fun b hb => by rw [repEncode_length, hb]; rfl) (require_ok _ _ _ _ hu).2
  | rdec =>
    exact finishes_of_transduce _ s u L _ (fun b hb => by rw [repDecode_length, hb]; rfl) (require_ok _ _ _ _ hu).2
  | henc => exact finishes_of_transduce _ s u L _ (fun b _ => rfl) (require_ok _ _ _ _ hu).2
  | hdec => exact finishes_of_transduce _ s u L _ (fun b _ => rfl) (require_ok _ _ _ _ hu).2
  | hencb =>
    exact finishes_of_transduce _ s u L _ (fun b hb => by rw [hamEncodeBits_length, hb]; rfl)
      (show bodyHencb s L = _ from hu)
  | hdecb =>
    exact finishes_of_transduce _ s u L _ (fun b hb => by rw [hamDecodeBits_length, hb]; rfl)
      (require_ok _ _ _ _ hu).2
  | noise seeded =>
    exact finishes_of_transduce _ s u L _ (fun b hb => by rw [channel_length, hb]; rfl) (require_ok _ _ _ _ hu).2
  | ber =>
    obtain ⟨r, rfl⟩ := compareRegions_inv s u L _ (require_ok _ _ _ _ hu).2
    exact finishes_of_no_output .ber s L _ _ s.tstate s.t0 s.t1 rfl fun _ => ⟨rfl, rfl, rfl⟩
  | succ =>
    obtain ⟨r, rfl⟩ := compareRegions_inv s u L _ (require_ok _ _ _ _ hu).2
    exact finishes_of_no_output .succ s L _ _ s.tstate s.t0 s.t1 rfl fun _ => ⟨rfl, rfl, rfl⟩
  | tstart =>
    injection hu with hu
    subst hu
    exact finishes_of_no_output .tstart s L _ _ .running s.now s.t1 rfl (by simp [isTimer])
  | tstop =>
    obtain ⟨-, hu⟩ := require_ok _ _ _ _ hu
    injection hu with hu
    subst hu
    exact finishes_of_no_output .tstop s L _ _ .stopped s.t0 s.now rfl (by simp [isTimer])
  | tread =>
    have h0 := fun r0 r1 => finishes_of_no_output .tread s L r0 r1 s.tstate s.t0 s.t1 rfl (by simp [isTimer])
    simp only [bodyOf, bodyTread] at hu
    split at hu
    · simp at hu
    · injection hu with hu
      subst hu
      exact h0 _ _
    · injection hu with hu
      subst hu
      exact h0 _ _

/-- Everything `exec` can do when it answers a next state: a command was latched, and it ended in one of the errors or
finished (40_command_engine.md R126-R128). -/
theorem exec_cases (i : Instr) (s t : State) (h : exec i s = .next t) :
    ∃ L, s.latch = some L ∧ ((∃ e, t = raiseError e s) ∨ Finishes i s t L.ops) := by
  rw [exec_eq_command] at h
  obtain ⟨L, hl, hb | ⟨e, -, ht⟩⟩ := command_cases s t _ h
  · exact ⟨L, hl, .inr (finishes_of_body i s t L.ops hb)⟩
  · exact ⟨L, hl, .inl ⟨e, ht⟩⟩

end Sys2Proof.Machine
end

