-- ==== Sys2Proof/Laws/PerInstr.lean ====
section
/-! SUPPORT. Statements made of every instruction, one lemma per constructor (30_encoding.md R102). -/

namespace Sys2Proof.Laws.LegalWord

/-- The word of a command is one of the 15 legal words of R102. -/
def Statement (i : Instr) : Prop :=
  (1 ≤ (encode i).toNat ∧ (encode i).toNat ≤ 14) ∨ (encode i).toNat = 0x109

theorem bpack : Statement .bpack := .inl (by decide)
theorem tpack : Statement .tpack := .inl (by decide)
theorem renc : Statement .renc := .inl (by decide)
theorem rdec : Statement .rdec := .inl (by decide)
theorem henc : Statement .henc := .inl (by decide)
theorem hdec : Statement .hdec := .inl (by decide)
theorem hencb : Statement .hencb := .inl (by decide)
theorem hdecb : Statement .hdecb := .inl (by decide)

theorem noise (seeded : Bool) : Statement (.noise seeded) := by
  cases seeded
  · exact .inl (by decide)
  · exact .inr (by decide)

theorem ber : Statement .ber := .inl (by decide)
theorem succ : Statement .succ := .inl (by decide)
theorem tstart : Statement .tstart := .inl (by decide)
theorem tstop : Statement .tstop := .inl (by decide)
theorem tread : Statement .tread := .inl (by decide)

end Sys2Proof.Laws.LegalWord
end

