-- ==== Sys2Proof/Laws/Step.lean ====
section
/-! SUPPORT. What a step and a host access can do, said once. -/

namespace Sys2Proof.Machine

/-- A step with a scheduled turn. -/
theorem step_cons (s : State) (turn : Turn) (rest : List Turn) (h : s.sched = turn :: rest) :
    step s = takeTurn turn { beginStep s with sched := rest } := by
  unfold step
  split
  · simp_all
  · simp_all

/-- A step when the schedule has run out. -/
theorem step_nil (s : State) (h : s.sched = []) : step s = takeTurn (defaultTurn (beginStep s)) (beginStep s) := by
  unfold step
  split
  · rfl
  · simp_all

/-- Every step is one turn, on the state with the step counted and the turn taken off the schedule. -/
theorem step_is_a_turn (s : State) : ∃ turn, step s = takeTurn turn { beginStep s with sched := s.sched.tail } := by
  cases h : s.sched with
  | nil =>
    refine ⟨defaultTurn (beginStep s), ?_⟩
    rw [step_nil s h, show ({ beginStep s with sched := [].tail } : State) = beginStep s by
      simp [beginStep, h]]
  | cons turn rest => exact ⟨turn, step_cons s turn rest h⟩

theorem takeTurn_engine (s : State) : takeTurn .engine s = engineTurn s := rfl
theorem takeTurn_host (s : State) : takeTurn .host s = .next (hostTurn s) := rfl
theorem takeTurn_timeBase (k : BitVec 64) (s : State) : takeTurn (.timeBase k) s = .next (timeBaseTurn k s) := rfl
theorem takeTurn_rst (s : State) : takeTurn .rst s = .next (resetTurn s) := rfl

/-- The engine's turn on a word that decodes. -/
theorem engineTurn_decoded (s : State) (L : Latch) (i : Instr) (hl : s.latch = some L) (hd : decode L.cmd = .ok i) :
    engineTurn s = exec i s := by
  simp only [engineTurn, hl, hd]

/-- The engine's turn on a word that is no command. -/
theorem engineTurn_illegal (s : State) (L : Latch) (e : Illegal) (hl : s.latch = some L)
    (hd : decode L.cmd = .error e) : engineTurn s = .next (raiseError (illegalError e) s) := by
  simp only [engineTurn, hl, hd]

/-- Everything the engine's turn can do. -/
theorem engineTurn_cases (s t : State) (h : engineTurn s = .next t) :
    (s.latch = none ∧ t = s) ∨
    (∃ L e, s.latch = some L ∧ decode L.cmd = .error e ∧ t = raiseError (illegalError e) s) ∨
    (∃ L i, s.latch = some L ∧ decode L.cmd = .ok i ∧ exec i s = .next t) := by
  cases hl : s.latch with
  | none =>
    simp only [engineTurn, hl] at h
    injection h with h
    exact .inl ⟨rfl, h.symm⟩
  | some L =>
    cases hd : decode L.cmd with
    | error e =>
      rw [engineTurn_illegal s L e hl hd] at h
      injection h with h
      exact .inr (.inl ⟨L, e, rfl, hd, h.symm⟩)
    | ok i => exact .inr (.inr ⟨L, i, rfl, hd, by rw [← engineTurn_decoded s L i hl hd, h]⟩)

/-! ## The host port -/

/-- A 32-bit access at a register's offset goes to that register. -/
theorem target_reg (s : State) (a : Word) (r : Reg) (h : regAt a.toNat = some r) (h4 : a.toNat % 4 = 0)
    (hl : a.toNat < 0x100) : target s .w32 a = .reg r := by
  simp [target, widthBytes, uint32, h, h4, hl]

theorem hostWrite_reg (s : State) (a v : Word) (r : Reg) (h : regAt a.toNat = some r) (h4 : a.toNat % 4 = 0)
    (hl : a.toNat < 0x100) : hostAccess s (.write .w32 a v) = regWrite s r v := by
  simp only [hostAccess, hostWrite, target_reg s a r h h4 hl]

theorem hostRead_reg (s : State) (a : Word) (r : Reg) (h : regAt a.toNat = some r) (h4 : a.toNat % 4 = 0)
    (hl : a.toNat < 0x100) : hostAccess s (.read .w32 a) = { s with rdata := regRead s r } := by
  simp only [hostAccess, hostRead, target_reg s a r h h4 hl]

/-- An access that goes nowhere. -/
theorem hostAccess_noEffect (s : State) (w : Width) (a v : Word) (h : target s w a = .noEffect) :
    hostAccess s (.read w a) = accessError { s with rdata := 0 } ∧ hostAccess s (.write w a v) = accessError s := by
  simp only [hostAccess, hostRead, hostWrite, h, and_self]

/-- Where an access goes, with what each place says of the access. -/
theorem target_cases (s : State) (w : Width) (a : Word) :
    target s w a = .noEffect ∨ (∃ r, target s w a = .reg r) ∨
    (target s w a = .window (8 * (a.toNat - s.params.winBase)) ∧ s.busy = false ∧ s.params.winBase ≤ a.toNat ∧
      a.toNat + widthBytes w ≤ s.params.winBase + s.params.bmBits / 8) := by
  unfold target
  split_ifs with h1 h2 h3 h4 h5
  · exact .inl rfl
  · cases regAt (uint32 a) with
    | none => exact .inl rfl
    | some r => exact .inr (.inl ⟨r, rfl⟩)
  · exact .inl rfl
  · exact .inl rfl
  · simp only [inWindow, Bool.and_eq_true, decide_eq_true_eq] at h4
    exact .inr (.inr ⟨rfl, by simpa using h5, h4.1, h4.2⟩)
  · exact .inl rfl

@[simp] theorem unpackBits_length (n : Nat) (v : Word) : (unpackBits n v).length = n := by simp [unpackBits]

/-- The packed value of a sequence: its first bit is the most significant. -/
theorem packBits_append (a : BitSeq) (b : Bit) : packBits (a ++ [b]) = 2 * packBits a + bitVal b := by
  simp [packBits]

/-- Everything a host access can change: the bit memory, the registers a write reaches, STATUS, the read data. -/
theorem hostAccess_keeps (s : State) (a : Access) :
    (hostAccess s a).params = s.params ∧ (hostAccess s a).outlen = s.outlen ∧ (hostAccess s a).res0 = s.res0 ∧
    (hostAccess s a).res1 = s.res1 ∧ (hostAccess s a).tstate = s.tstate ∧ (hostAccess s a).t0 = s.t0 ∧
    (hostAccess s a).t1 = s.t1 ∧ (hostAccess s a).now = s.now ∧ (hostAccess s a).port = s.port ∧
    (hostAccess s a).sched = s.sched ∧ (hostAccess s a).draws = s.draws := by
  cases a with
  | read w a =>
    simp only [hostAccess, hostRead]
    split <;> exact ⟨rfl, rfl, rfl, rfl, rfl, rfl, rfl, rfl, rfl, rfl, rfl⟩
  | write w a v =>
    simp only [hostAccess, hostWrite]
    split
    · rename_i r _
      cases r with
      | cmd =>
        simp only [regWrite, offerCommand]
        split <;> exact ⟨rfl, rfl, rfl, rfl, rfl, rfl, rfl, rfl, rfl, rfl, rfl⟩
      | _ => exact ⟨rfl, rfl, rfl, rfl, rfl, rfl, rfl, rfl, rfl, rfl, rfl⟩
    · exact ⟨rfl, rfl, rfl, rfl, rfl, rfl, rfl, rfl, rfl, rfl, rfl⟩
    · exact ⟨rfl, rfl, rfl, rfl, rfl, rfl, rfl, rfl, rfl, rfl, rfl⟩

/-- Bit 1 of STATUS is DONE (10_state.md R26). -/
theorem statusWord_done (busy : Bool) (st : Status) : (statusWord busy st).getLsbD 1 = st.done := by
  obtain ⟨done, err, ovr, accerr, ecode, ecause⟩ := st
  unfold statusWord
  simp only [BitVec.getLsbD_append]
  simp

/-- Everything the host's turn can do. -/
theorem hostTurn_cases (s : State) :
    (s.port = [] ∧ hostTurn s = s) ∨
    (∃ a rest, s.port = .access a :: rest ∧ hostTurn s = hostAccess { s with port := rest } a) ∨
    (∃ rest v, s.port = .waitDone :: rest ∧ v = statusWord s.busy s.status ∧
      hostTurn s = { s with rdata := v, port := if s.status.done = true then rest else s.port }) := by
  cases hp : s.port with
  | nil => exact .inl ⟨rfl, by simp [hostTurn, hp]⟩
  | cons op rest =>
    cases op with
    | access a => exact .inr (.inl ⟨a, rest, rfl, by simp [hostTurn, hp]⟩)
    | waitDone =>
      refine .inr (.inr ⟨rest, _, rfl, rfl, ?_⟩)
      have h : hostRead s .w32 (regAddr .status) = { s with rdata := statusWord s.busy s.status } :=
        hostRead_reg s (regAddr .status) .status (by decide) (by decide) (by decide)
      simp only [hostTurn, hp, h, statusWord_done]
      cases s.status.done <;> simp

end Sys2Proof.Machine
end

