-- ==== Sys2Proof/Laws/Results.lean ====
section
/-! SUPPORT. What a command's execute step answers when its checks pass, and the outputs of the units read through one
index. -/

namespace Sys2Proof.Machine

/-- Legal parameters, as plain inequalities (00_scope.md R6). -/
theorem params_bounds (s : State) (h : s.params.wf = true) :
    s.params.bmBits % 32 = 0 ∧ 32 ≤ s.params.bmBits ∧ s.params.bmBits ≤ 2 ^ 31 ∧ 0x100 ≤ s.params.winBase ∧
      s.params.winBase + s.params.bmBits / 8 ≤ 2 ^ 32 := by
  simp only [Config.Params.wf, Bool.and_eq_true, decide_eq_true_eq, beq_iff_eq] at h
  omega

/-- A region in range is shorter than 2^31. -/
theorem input_le (s : State) (L : Operands) (n : Nat) (hw : s.params.wf = true) (hr : RegionsOk s L n) :
    L.len0.toNat ≤ 2 ^ 31 ∧ n ≤ 2 ^ 31 := by
  have hb := params_bounds s hw
  have h := hr.input
  have h' := hr.output
  unfold Fits at h h'
  omega

theorem memRead_getElem? (s : State) (k a n i : Nat) (h : i < n) :
    (memRead s k a n)[i]? = some (readBit s k (a + i)) := by simp [memRead, h]

/-- A command with one input and one output region whose checks all pass: it completes with the body's results, its
output cells hold the body's bits, and nothing else changes. -/
theorem transduce_result (i : Instr) (s : State) (L : Latch) (f : BitSeq → Output) (n : Nat) (o : Output)
    (hl : s.latch = some L) (hw : s.params.wf = true) (hb : bodyOf i s L.ops = transduce i s L.ops f)
    (hn : outLen i L.ops = n) (hr : RegionsOk s L.ops n)
    (ho : f (memRead s 0 (src0At L.ops) (len0Of L.ops)) = o) (hlen : o.bits.length = n)
    (h0 : o.res0 < 2 ^ 32) (h1 : o.res1 < 2 ^ 32) :
    ∃ t, exec i s = .next t ∧ Completed s t n o.res0 o.res1 ∧
      (∀ k, k < n → t.cell (L.ops.dst.toNat + k) = o.bits[k]?) ∧ OnlyWrites s t L.ops.dst.toNat n := by
  subst hn
  have ht := transduce_ok i s L.ops f hr
  rw [ho] at ht
  have hle := (input_le s L.ops _ hw hr).2
  refine ⟨_, exec_ok i s _ L hl (hb.trans ht), ⟨?_, ?_, ?_, rfl, rfl, rfl⟩, fun k hk => ?_,
    ⟨fun x hx => ?_, ⟨rfl, rfl, rfl, rfl, rfl, rfl, rfl, rfl, rfl⟩, ⟨rfl, rfl, rfl⟩⟩⟩
  · exact regValue_toNat _ (by omega)
  · exact regValue_toNat _ h0
  · exact regValue_toNat _ h1
  · exact cell_memWrite_inside s L.ops.dst.toNat k o.bits (by omega)
  · rw [← hlen] at hx
    exact ⟨cell_memWrite_outside s _ x _ hx, fun k => readBit_memWrite_outside s k _ x _ hx⟩

/-- A comparison of two regions whose checks all pass. -/
theorem compareRegions_result (i : Instr) (s : State) (L : Latch) (f : BitSeq → BitSeq → Nat) (r : Nat)
    (hl : s.latch = some L) (hb : bodyOf i s L.ops = compareRegions s L.ops f)
    (h0 : Fits s L.ops.src0.toNat L.ops.len0.toNat) (h1 : Fits s L.ops.src1.toNat L.ops.len1.toNat)
    (hr : f (memRead s 0 (src0At L.ops) (len0Of L.ops)) (memRead s 1 (src1At L.ops) (len1Of L.ops)) = r)
    (hlt : r < 2 ^ 32) :
    ∃ t, exec i s = .next t ∧ Completed s t 0 r L.ops.len0.toNat ∧ OnlyWrites s t 0 0 := by
  subst hr
  exact ⟨_, exec_ok i s _ L hl (hb.trans (compareRegions_ok s L.ops f h0 h1)),
    ⟨rfl, regValue_toNat _ hlt, regValue_toNat _ L.ops.len0.isLt, rfl, rfl, rfl⟩,
    ⟨fun x _ => ⟨rfl, fun _ => rfl⟩, ⟨rfl, rfl, rfl, rfl, rfl, rfl, rfl, rfl, rfl⟩, ⟨rfl, rfl, rfl⟩⟩⟩

/-- A command error is one of the pairs of the tables. -/
theorem error_legal (e : CmdError) : ((errorCode e).toNat, (errorCause e).toNat) ∈ legalErrors := by
  cases e <;> decide

/-- What raising an error leaves. -/
theorem raiseError_failed (s : State) (e : CmdError) : Failed s (raiseError e s) (errorCode e) (errorCause e) :=
  ⟨rfl, rfl, rfl, rfl, rfl, rfl⟩

theorem raiseError_frame (s : State) (e : CmdError) : OnlyWrites s (raiseError e s) 0 0 :=
  ⟨fun _ _ => ⟨rfl, fun _ => rfl⟩, ⟨rfl, rfl, rfl, rfl, rfl, rfl, rfl, rfl, rfl⟩, ⟨rfl, rfl, rfl⟩⟩

/-! ## Groups and blocks -/

/-- A group of a region is a read of a smaller region. -/
theorem group_memRead (n : Nat) (s : State) (r a l j : Nat) :
    ((memRead s r a l).drop (j * n)).take n = memRead s r (a + j * n) (min n (l - j * n)) := by
  apply List.ext_getElem?
  intro k
  simp only [memRead, List.getElem?_take, List.getElem?_drop, List.getElem?_map]
  by_cases h1 : k < n
  · by_cases h2 : j * n + k < l
    · rw [if_pos h1, List.getElem?_range h2, List.getElem?_range (by omega)]
      simp [Nat.add_assoc]
    · rw [if_pos h1, List.getElem?_eq_none (by simp; omega), List.getElem?_eq_none (by simp; omega)]
      rfl
  · rw [if_neg h1, List.getElem?_eq_none (by simp; omega)]
    rfl

/-- Bit `k*j + i` of blocks of equal output length is bit `i` of block `j`'s output. -/
theorem flatMap_getElem? (l : List BitSeq) (f : BitSeq → BitSeq) (k j i : Nat) (hf : ∀ x, (f x).length = k)
    (hi : i < k) (hj : j < l.length) : (l.flatMap f)[k * j + i]? = (f l[j])[i]? := by
  induction l generalizing j with
  | nil => simp at hj
  | cons a l ih =>
    rw [List.flatMap_cons]
    cases j with
    | zero =>
      rw [List.getElem?_append_left (by rw [hf]; omega)]
      simp
    | succ j =>
      rw [List.getElem?_append_right (by rw [hf, Nat.mul_add]; omega), hf,
        show k * (j + 1) + i - k = k * j + i by rw [Nat.mul_add]; omega, ih j (by simpa using hj)]
      rfl

theorem repEncode_getElem? (n : Nat) (s : BitSeq) (i k : Nat) (hk : k < n) (hi : i < s.length) :
    (repEncode n s)[i * n + k]? = some s[i] := by
  induction s generalizing i with
  | nil => simp at hi
  | cons b s ih =>
    have hcons : repEncode n (b :: s) = List.replicate n b ++ repEncode n s := by simp [repEncode, repEnc1]
    rw [hcons]
    cases i with
    | zero =>
      rw [List.getElem?_append_left (by simp; omega)]
      simp [hk]
    | succ i =>
      rw [List.getElem?_append_right (by simp [Nat.add_mul]; omega)]
      simp only [List.length_replicate]
      rw [show (i + 1) * n + k - n = i * n + k by rw [Nat.add_mul]; omega, ih i (by simpa using hi)]
      rfl

theorem countP_map_range (n : Nat) (f : Nat → BitSeq) (p : BitSeq → Bool) :
    ((List.range n).map f).countP p = countBelow n fun j => p (f j) := by
  rw [List.countP_map, List.countP_eq_length_filter]
  rfl

theorem countBelow_congr (n : Nat) (p q : Nat → Bool) (h : ∀ i, i < n → p i = q i) :
    countBelow n p = countBelow n q := by
  unfold countBelow
  congr 1
  exact List.filter_congr fun i hi => h i (List.mem_range.1 hi)

theorem countBelow_le (n : Nat) (p : Nat → Bool) : countBelow n p ≤ n :=
  (List.length_filter_le _ _).trans (by simp)

/-! ## Hamming units -/

/-- The syndrome of 43_hamming.md R193, in arithmetic. -/
theorem syndrome_eq (b : BitSeq) : syndrome b = syndromeOf fun i => bitAt b i := by
  simp only [syndrome, syndromeOf]
  generalize (bitAt b 0 ^^ bitAt b 2 ^^ bitAt b 4 ^^ bitAt b 6) = x
  generalize (bitAt b 1 ^^ bitAt b 2 ^^ bitAt b 5 ^^ bitAt b 6) = y
  generalize (bitAt b 3 ^^ bitAt b 4 ^^ bitAt b 5 ^^ bitAt b 6) = z
  revert x y z
  decide

/-- The decoder unit of 43_hamming.md R193, bit by bit. -/
theorem hamDec7_eq (b : BitSeq) (h : b.length = 7) : hamDec7 b = decodedOf fun i => bitAt b i := by
  have key : ∀ b0 b1 b2 b3 b4 b5 b6 : Bool, hamDec7 [b0, b1, b2, b3, b4, b5, b6] =
      decodedOf fun i => bitAt [b0, b1, b2, b3, b4, b5, b6] i := by decide
  match b, h with
  | [b0, b1, b2, b3, b4, b5, b6], _ => exact key b0 b1 b2 b3 b4 b5 b6

theorem syndromeOf_congr (c d : Nat → Bit) (h : ∀ i, i < 7 → c i = d i) : syndromeOf c = syndromeOf d := by
  simp [syndromeOf, h]

theorem decodedOf_congr (c d : Nat → Bit) (h : ∀ i, i < 7 → c i = d i) : decodedOf c = decodedOf d := by
  simp only [decodedOf, syndromeOf_congr c d h]
  simp [h]

theorem syndromeOf_lt (c : Nat → Bit) : syndromeOf c < 8 := by
  unfold syndromeOf bitVal
  split_ifs <;> omega

/-! ## The window -/

theorem packBits_lt (l : BitSeq) : packBits l < 2 ^ l.length := by
  induction l using List.reverseRecOn with
  | nil => decide
  | append_singleton l b ih =>
    rw [packBits_append]
    simp only [List.length_append, List.length_singleton, pow_succ, bitVal]
    split_ifs <;> omega

/-- Bit `b` of the packed value is the bit `b` places before the last. -/
theorem packBits_testBit (l : BitSeq) (b : Nat) (h : b < l.length) :
    (packBits l).testBit b = l.getD (l.length - 1 - b) false := by
  induction l using List.reverseRecOn generalizing b with
  | nil => simp at h
  | append_singleton l v ih =>
    rw [packBits_append]
    cases b with
    | zero =>
      simp [Nat.testBit_zero]
      cases v <;> simp [bitVal]
    | succ b =>
      rw [Nat.testBit_succ]
      have h2 : (2 * packBits l + bitVal v) / 2 = packBits l := by
        unfold bitVal
        split_ifs <;> omega
      rw [h2, ih b (by simpa using h)]
      simp at h
      simp only [List.getD, List.length_append, List.length_singleton]
      rw [show l.length + 1 - 1 - (b + 1) = l.length - 1 - b by omega, List.getElem?_append_left (by omega)]

end Sys2Proof.Machine
end

