-- ==== Sys2Proof/Tests/Slice0.lean ====
section
/-! SUPPORT. The model's own tests: ill-formed terms refused, words written out from the encoding tables, one-step
checks whose expected values are those of 95_test_vectors.md, and a witness for the hypotheses of each statement. -/

namespace Sys2Proof.Tests

open Sys2Proof Sys2Proof.Machine

/-! ## Helpers -/

/-- A bit sequence from 0s and 1s. -/
def seq (l : List Nat) : BitSeq := l.map (· == 1)

/-- A bit memory that holds a sequence from a cell on and nothing else. -/
def cellsFrom (a : Nat) (l : List Nat) : Memory := Memory.setBits [] a (seq l)

/-- The reset machine with these operand registers and this bit memory. -/
def machine (o : Operands) (m : Memory) : State := { State.reset with ops := o, bm := m }

/-- The reset machine with a command latched. -/
def latchedState (w : Word) (o : Operands) (m : Memory) : State :=
  { machine o m with cmd := w, latch := some { cmd := w, ops := o } }

/-- SRC0, LEN0 and DST; the other operand registers zero. -/
def regs (src len dst : Word) : Operands := { Operands.reset with src0 := src, len0 := len, dst := dst }

/-- The reset machine with this timer state. -/
def timerState (ts : TimerState) (now t0 t1 : BitVec 64) : State :=
  { State.reset with tstate := ts, now := now, t0 := t0, t1 := t1 }

/-- The state after a step, State.reset where there is none. -/
def stateOf (o : Outcome) : State :=
  match o with
  | .next t => t
  | .fault _ => State.reset
  | .refused _ => State.reset

/-- What one step of a command word leaves: `n` cells from `a` on, OUTLEN, RES0, RES1 and STATUS as the host reads
it; none if the step answers no next state. -/
def outcome (s : State) (w a n : Nat) : Option (List (Option Bit) × Nat × Nat × Nat × Word) :=
  match step (s.withFetchWord 32 w) with
  | .next t =>
    some ((List.range n).map fun i => t.cell (a + i), t.outlen.toNat, t.res0.toNat, t.res1.toNat,
      statusWord t.busy t.status)
  | .fault _ => none
  | .refused _ => none

/-- A successful outcome. -/
def success (l : List Nat) (outlen res0 res1 : Nat) : Option (List (Option Bit) × Nat × Nat × Nat × Word) :=
  some ((seq l).map some, outlen, res0, res1, 0x00000002)

/-- A failed outcome whose STATUS is `st`, looking at no cell. -/
def failure (st : Word) : Option (List (Option Bit) × Nat × Nat × Nat × Word) := some ([], 0, 0, 0, st)

/-! ## Well-formedness: an ill-formed term for each check (00_scope.md R6, 20_memory.md R62). No term of `Instr` is
ill formed: a command has no operand field that could be out of range. -/

theorem test_wf_default : Config.Params.default.wf = true := by decide
theorem test_wf_size_multiple : ({ Config.Params.default with bmBits := 65537 } : Config.Params).wf = false := by decide
theorem test_wf_size_low : ({ Config.Params.default with bmBits := 0 } : Config.Params).wf = false := by decide
theorem test_wf_size_high : ({ Config.Params.default with bmBits := 2 ^ 31 + 32 } : Config.Params).wf = false := by
  decide
theorem test_wf_base_multiple : ({ Config.Params.default with winBase := 0x10080 } : Config.Params).wf = false := by
  decide
theorem test_wf_base_low : ({ Config.Params.default with winBase := 0 } : Config.Params).wf = false := by decide
theorem test_wf_window_end : ({ Config.Params.default with winBase := 2 ^ 32 - 0x100 } : Config.Params).wf = false := by
  decide
theorem test_wf_line_byte : Line.wf .default (.wb8 8192 0) = false ∧ Line.wf .default (.rb8 8191) = true := by decide
theorem test_wf_line_half : Line.wf .default (.wb16 1 0) = false ∧ Line.wf .default (.rb16 8192) = false := by decide
theorem test_wf_line_word : Line.wf .default (.rb32 2) = false ∧ Line.wf .default (.wb32 8192 0) = false := by decide
theorem test_wf_instr : Instr.wf .hdecb = true ∧ Instr.wf (.noise true) = true := by decide

/-! ## Decoding: words written out from 30_encoding.md R90 and R91, RSV then S then OP -/

theorem test_decode_conversion :
    decode 0b00000000000000000000000_0_00000001 = .ok .bpack ∧
    decode 0b00000000000000000000000_0_00000010 = .ok .tpack := by decide

theorem test_decode_repetition :
    decode 0b00000000000000000000000_0_00000011 = .ok .renc ∧
    decode 0b00000000000000000000000_0_00000100 = .ok .rdec := by decide

theorem test_decode_hamming :
    decode 0b00000000000000000000000_0_00000101 = .ok .henc ∧
    decode 0b00000000000000000000000_0_00000110 = .ok .hdec ∧
    decode 0b00000000000000000000000_0_00000111 = .ok .hencb ∧
    decode 0b00000000000000000000000_0_00001000 = .ok .hdecb := by decide

theorem test_decode_channel :
    decode 0b00000000000000000000000_0_00001001 = .ok (.noise false) ∧
    decode 0b00000000000000000000000_1_00001001 = .ok (.noise true) := by decide

theorem test_decode_metrics :
    decode 0b00000000000000000000000_0_00001010 = .ok .ber ∧
    decode 0b00000000000000000000000_0_00001011 = .ok .succ := by decide

theorem test_decode_timer :
    decode 0b00000000000000000000000_0_00001100 = .ok .tstart ∧
    decode 0b00000000000000000000000_0_00001101 = .ok .tstop ∧
    decode 0b00000000000000000000000_0_00001110 = .ok .tread := by decide

/-- The rejected words of 95_test_vectors.md 2.1, with STATUS at completion. -/
theorem test_decode_rejects :
    decode 0x00000000 = .error .badOpcode ∧ decode 0x0000000F = .error .badOpcode ∧
    decode 0x000000FF = .error .badOpcode ∧ decode 0x00000100 = .error .badOpcode ∧
    decode 0x00000105 = .error .sNotAllowed ∧ decode 0x00000200 = .error .rsvBits ∧
    decode 0x80000001 = .error .rsvBits ∧ decode 0x00000309 = .error .rsvBits := by decide

theorem test_illegal_status :
    outcome State.reset 0x0F 0 0 = failure 0x00020206 ∧ outcome State.reset 0x105 0 0 = failure 0x00030206 := by
  decide

theorem test_illegal_status_reserved : outcome State.reset 0x200 0 0 = failure 0x00010206 := by decide

/-! ## One step of each command (95_test_vectors.md sections 2.3 to 2.9) -/

/-- 2.3: `011000011` packs to `0x61 0x80`. -/
theorem test_bpack : outcome (machine (regs 0 9 16) (cellsFrom 0 [0, 1, 1, 0, 0, 0, 0, 1, 1])) 0x01 16 16 =
    success [0, 1, 1, 0, 0, 0, 0, 1, 1, 0, 0, 0, 0, 0, 0, 0] 16 2 7 := by decide

/-- 2.9: a zero-length region may start at BM_BITS and no later. -/
theorem test_bpack_empty : outcome (machine (regs 0 0 65536) []) 0x01 0 0 = success [] 0 0 0 ∧
    outcome (machine (regs 0 0 65537) []) 0x01 0 0 = failure 0x00030306 := by decide

/-- 2.3: `011000011` as text is `0x61`. -/
theorem test_tpack : outcome (machine (regs 0 9 16) (cellsFrom 0 [0, 1, 1, 0, 0, 0, 0, 1, 1])) 0x02 16 8 =
    success [0, 1, 1, 0, 0, 0, 0, 1] 8 1 1 := by decide

/-- 2.3: the output (8, 8) meets the input (0, 9); with LEN0 = 7 the output is empty and overlaps nothing. -/
theorem test_tpack_overlap :
    outcome (machine (regs 0 9 8) (cellsFrom 0 [0, 1, 1, 0, 0, 0, 0, 1, 1])) 0x02 0 0 = failure 0x00010406 ∧
    outcome (machine (regs 0 7 3) (cellsFrom 0 [1, 1, 1, 1, 1, 1, 1])) 0x02 0 0 = success [] 0 0 7 := by decide

/-- S1: encode([1,0], 5). -/
theorem test_renc : outcome (machine { regs 0 2 8 with param := 5 } (cellsFrom 0 [1, 0])) 0x03 8 10 =
    success [1, 1, 1, 1, 1, 0, 0, 0, 0, 0] 10 0 2 := by decide

/-- 2.4: PARAM = -1, and an output that cannot fit. -/
theorem test_renc_errors :
    outcome (machine { regs 0 0 8 with param := 0xFFFFFFFF } []) 0x03 0 0 = failure 0x00010106 ∧
    outcome (machine { regs 0 1 8 with param := 0x7FFFFFFF } []) 0x03 0 0 = failure 0x00030306 := by decide

/-- 2.4: the short group `10` of `11110` ties and gives 0. -/
theorem test_rdec : outcome (machine { regs 0 5 8 with param := 3 } (cellsFrom 0 [1, 1, 1, 1, 0])) 0x04 8 2 =
    success [1, 0] 2 1 2 := by decide

theorem test_rdec_short_group :
    outcome (machine { regs 0 5 8 with param := 4 } (cellsFrom 0 [1, 1, 1, 0, 1])) 0x04 8 2 =
      success [1, 1] 2 1 2 := by decide

/-- S3: the codeword of 1011. -/
theorem test_henc : outcome (machine (regs 0 4 8) (cellsFrom 0 [1, 0, 1, 1])) 0x05 8 7 =
    success [0, 1, 1, 0, 0, 1, 1] 7 0 1 := by decide

/-- 2.9: overlap, and the precondition before the ranges. -/
theorem test_henc_errors :
    outcome (machine (regs 0 4 2) (cellsFrom 0 [1, 0, 1, 1])) 0x05 0 0 = failure 0x00010406 ∧
    outcome (machine (regs 65534 5 65530) []) 0x05 0 0 = failure 0x00020106 := by decide

/-- 2.5.2: index 4 flipped. -/
theorem test_hdec : outcome (machine (regs 8 7 16) (cellsFrom 8 [0, 1, 1, 0, 1, 1, 1])) 0x06 16 4 =
    success [1, 0, 1, 1] 4 5 1 := by decide

/-- 2.5.3: two flips are mis-corrected. -/
theorem test_hdec_two_errors : outcome (machine (regs 8 7 16) (cellsFrom 8 [1, 0, 1, 0, 0, 1, 1])) 0x06 16 4 =
    success [0, 0, 1, 1] 4 3 1 := by decide

/-- 2.5.4: `10111`. -/
theorem test_hencb : outcome (machine (regs 0 5 8) (cellsFrom 0 [1, 0, 1, 1, 1])) 0x07 8 14 =
    success [0, 1, 1, 0, 0, 1, 1, 1, 1, 1, 0, 0, 0, 0] 14 3 2 := by decide

/-- 2.5.4: index 6 of each block flipped. -/
theorem test_hdecb :
    outcome (machine (regs 0 14 16) (cellsFrom 0 [0, 1, 1, 0, 0, 1, 0, 1, 1, 1, 0, 0, 0, 1])) 0x08 16 8 =
      success [1, 0, 1, 1, 1, 0, 0, 0] 8 2 2 := by decide

theorem test_hdecb_length : outcome (machine (regs 0 13 16) []) 0x08 0 0 = failure 0x00040106 := by decide

/-- 2.6.2: SEED 0, p = 0.5; the first byte `10110010` becomes `01111000`. -/
theorem test_noise_seeded :
    outcome (machine { regs 0 8 16 with prob := 0x40000000 } (cellsFrom 0 [1, 0, 1, 1, 0, 0, 1, 0])) 0x109 16 8 =
      success [0, 1, 1, 1, 1, 0, 0, 0] 8 4 0 := by decide

/-- S10: p = 1 complements the input whatever the seed is. 2.6.2: PROB above 2^31 is an error. -/
theorem test_noise_range :
    outcome (machine { regs 0 0 16 with prob := 0x80000000 } []) 0x09 16 0 = success [] 0 0 0 ∧
    outcome (machine { regs 0 16 0 with prob := 0x90000000 } []) 0x109 0 0 = failure 0x00050106 := by decide

/-- 2.7: `1011` and `1110` differ at two positions. -/
theorem test_ber :
    outcome (machine { regs 0 4 0 with src1 := 4, len1 := 4 } (cellsFrom 0 [1, 0, 1, 1, 1, 1, 1, 0])) 0x0A 0 0 =
      success [] 0 2 4 := by decide

theorem test_ber_lengths :
    outcome (machine { regs 0 3 0 with src1 := 4, len1 := 4 } []) 0x0A 0 0 = failure 0x00060106 := by decide

/-- 2.7: equal sequences, and a second input out of range. -/
theorem test_succ :
    outcome (machine { regs 0 2 0 with src1 := 2, len1 := 2 } (cellsFrom 0 [1, 0, 1, 0])) 0x0B 0 0 =
      success [] 0 1 2 ∧
    outcome (machine { regs 0 2 0 with src1 := 65535, len1 := 2 } []) 0x0B 0 0 = failure 0x00020306 := by decide

theorem test_succ_different :
    outcome (machine { regs 0 4 0 with src1 := 4, len1 := 4 } (cellsFrom 0 [1, 0, 1, 1, 1, 1, 1, 0])) 0x0B 0 0 =
      success [] 0 0 4 := by decide

/-- R21: BER of one unwritten cell against itself compares two draws. -/
theorem test_ber_of_an_unwritten_cell :
    (stateOf (exec .ber (latchedState 0x0A { regs 8 1 0 with src1 := 8, len1 := 1 } []))).res0 =
      regValue (mismatches [Config.freeBit 0 0 8] [Config.freeBit 0 1 8]) := rfl

/-- 2.8 step 3. -/
theorem test_tstart : outcome (timerState .idle 0x0000000100000005 0 0) 0x0C 0 0 = success [] 0 5 1 := by decide

/-- 2.8 steps 5 and 2. -/
theorem test_tstop :
    outcome (timerState .running 0x00000001000000C9 0x0000000100000005 0) 0x0D 0 0 =
      success [] 0 196 0 ∧
    outcome State.reset 0x0D 0 0 = failure 0x00010506 := by decide

/-- 2.8 steps 6 and 10. -/
theorem test_tread :
    outcome (timerState .stopped 0x0000000200000000 0x0000000100000005 0x00000001000000C9) 0x0E 0 0 =
      success [] 0 196 0 ∧
    outcome (timerState .running 1 0xFFFFFFFFFFFFFFFF 0) 0x0E 0 0 =
      success [] 0 2 0 := by decide

/-- 2.8 step 1. -/
theorem test_tread_idle : outcome State.reset 0x0E 0 0 = failure 0x00020506 := by decide

/-! ## The host port (95_test_vectors.md 2.2) -/

theorem test_window_write :
    (hostAccess State.reset (.write .w8 0x00010000 0xB0)).bm = cellsFrom 0 [1, 0, 1, 1, 0, 0, 0, 0] := by decide

theorem test_window_read :
    (hostAccess (hostAccess State.reset (.write .w32 0x00010000 0x12345678)) (.read .w16 0x00010002)).rdata = 0x5678 ∧
    (hostAccess (hostAccess State.reset (.write .w32 0x00010000 0x12345678)) (.read .w8 0x00010000)).rdata = 0x12 := by
  decide

theorem test_access_errors :
    hostAccess State.reset (.write .w16 0x00010001 0xFFFF) = accessError State.reset ∧
    hostAccess State.reset (.read .w32 0x44) = accessError State.reset ∧
    hostAccess State.reset (.read .w8 0x08) = accessError State.reset := by decide

theorem test_registers :
    (hostAccess State.reset (.read .w32 0x00)).rdata = 0x42530100 ∧
    (hostAccess State.reset (.read .w32 0x40)).rdata = 0x00010000 := by decide

/-- Program P4: a second CMD write while BUSY is dropped and reads back in STATUS as 0x00000009. -/
theorem test_dropped_command :
    (hostAccess (hostAccess (accept State.reset 5) (.write .w32 0x04 5)) (.read .w32 0x08)).rdata = 0x00000009 := by
  decide

/-! ## Witnesses: for each statement with hypotheses, a concrete state and operands that meet them all together -/

/-- A command latched with these operands. -/
def latchOf (w : Word) (o : Operands) : Latch := { cmd := w, ops := o }

/-- The regions of a command pass its checks. -/
theorem regionsOk_of (s : State) (L : Operands) (n : Nat) (h0 : L.src0.toNat + L.len0.toNat ≤ s.params.bmBits)
    (h1 : L.dst.toNat + n ≤ s.params.bmBits)
    (h2 : n = 0 ∨ L.len0.toNat = 0 ∨ L.src0.toNat + L.len0.toNat ≤ L.dst.toNat ∨ L.dst.toNat + n ≤ L.src0.toNat) :
    RegionsOk s L n := ⟨h0, h1, h2⟩

/-- The hypotheses the result statements share: a latched command, legal parameters, regions that pass the checks. -/
structure Ready (s : State) (L : Latch) (n : Nat) : Prop where
  latched : s.latch = some L
  legal : s.params.wf = true
  regions : RegionsOk s L.ops n

theorem ready_of (w : Word) (o : Operands) (m : Memory) (n : Nat) (h0 : o.src0.toNat + o.len0.toNat ≤ 65536)
    (h1 : o.dst.toNat + n ≤ 65536)
    (h2 : n = 0 ∨ o.len0.toNat = 0 ∨ o.src0.toNat + o.len0.toNat ≤ o.dst.toNat ∨ o.dst.toNat + n ≤ o.src0.toNat) :
    Ready (latchedState w o m) (latchOf w o) n := ⟨rfl, test_wf_default, regionsOk_of _ _ _ h0 h1 h2⟩

/-- DecoderChecksInOrder: a word at the edge of each clause's range. -/
theorem witness_DecoderChecksInOrder :
    (0x200 : Word).toNat / 2 ^ 9 ≠ 0 ∧
    ((0x1FF : Word).toNat / 2 ^ 9 = 0 ∧ ¬(1 ≤ (0x1FF : Word).toNat % 256 ∧ (0x1FF : Word).toNat % 256 ≤ 14)) ∧
    ((0x101 : Word).toNat / 2 ^ 9 = 0 ∧ 1 ≤ (0x101 : Word).toNat % 256 ∧ (0x101 : Word).toNat % 256 ≤ 14 ∧
      (0x101 : Word).getLsbD 8 = true ∧ (0x101 : Word).toNat % 256 ≠ 9) ∧
    ((0x109 : Word).toNat / 2 ^ 9 = 0 ∧ 1 ≤ (0x109 : Word).toNat % 256 ∧ (0x109 : Word).toNat % 256 ≤ 14 ∧
      ((0x109 : Word).getLsbD 8 = true → (0x109 : Word).toNat % 256 = 9)) := by decide

/-- IllegalWordRaisesIllegalCmd: each cause, at the edges of its range. -/
theorem witness_IllegalWord_reserved :
    (latchedState 0x200 .reset []).latch = some (latchOf 0x200 .reset) ∧
      (latchOf 0x200 .reset).cmd.toNat / 2 ^ 9 ≠ 0 := by decide

theorem witness_IllegalWord_opcode :
    (latchedState 0x10F .reset []).latch = some (latchOf 0x10F .reset) ∧
      (latchOf 0x10F .reset).cmd.toNat / 2 ^ 9 = 0 ∧ 0x0F ≤ (latchOf 0x10F .reset).cmd.toNat % 256 := by decide

theorem witness_IllegalWord_opcode_zero :
    (latchOf 0 .reset).cmd.toNat / 2 ^ 9 = 0 ∧ (latchOf 0 .reset).cmd.toNat % 256 = 0 := by decide

theorem witness_IllegalWord_seed :
    (latchedState 0x10E .reset []).latch = some (latchOf 0x10E .reset) ∧
      (latchOf 0x10E .reset).cmd.toNat / 2 ^ 9 = 0 ∧ 1 ≤ (latchOf 0x10E .reset).cmd.toNat % 256 ∧
      (latchOf 0x10E .reset).cmd.toNat % 256 ≤ 0x0E ∧ (latchOf 0x10E .reset).cmd.getLsbD 8 = true ∧
      (latchOf 0x10E .reset).cmd.toNat % 256 ≠ 0x09 := by decide

/-- StepTakesTheNextTurn: a state for each of the four clauses. -/
theorem witness_StepTakesTheNextTurn :
    ({ State.reset with sched := [.rst] } : State).sched = [.rst] ∧
    ((latchedState 1 .reset []).sched = [] ∧ (latchedState 1 .reset []).busy = true) ∧
    ((loadScript State.reset [.wait]).sched = [] ∧ (loadScript State.reset [.wait]).busy = false ∧
      (loadScript State.reset [.wait]).port ≠ []) ∧
    (State.reset.sched = [] ∧ State.reset.busy = false ∧ State.reset.port = []) := by decide

/-- StepRunsTheDecodedCommand: a latched command, with the engine's turn listed and with no turn listed. -/
theorem witness_StepRunsTheDecodedCommand :
    (latchedState 0x109 .reset []).latch = some (latchOf 0x109 .reset) ∧
    decode (latchOf 0x109 .reset).cmd = .ok (.noise true) ∧
    ({ latchedState 0x109 .reset [] with sched := [.engine] } : State).sched = [.engine] ∧
    (latchedState 0x109 .reset []).sched = [] := by decide

/-- CmdWriteIsAcceptedOrDropped, AcceptedCommandCompletes: a busy and an idle machine. -/
theorem witness_CmdWrite : (latchedState 5 .reset []).busy = true ∧ State.reset.busy = false := by decide

/-- RunningCommandUsesLatchedOperands, CommandChangesOnlyItsOwnState, EveryLatchedCommandEnds, InterruptLevel: a latched
HENC whose execute step answers a next state. -/
theorem witness_exec_next :
    (latchedState 5 (regs 0 4 8) (cellsFrom 0 [1, 0, 1, 1])).latch = some (latchOf 5 (regs 0 4 8)) ∧
    ∃ t, exec .henc (latchedState 5 (regs 0 4 8) (cellsFrom 0 [1, 0, 1, 1])) = .next t :=
  ⟨rfl, _, rfl⟩

/-- FailedCommandHasNoOtherEffect: a command that ends in an error. -/
theorem witness_FailedCommand :
    ∃ t, exec .henc (latchedState 5 (regs 0 5 8) []) = .next t ∧ t.status.err = true := ⟨_, rfl, rfl⟩

/-- FailedPreconditionRaisesInvalidParam: each precondition at the edge of its range. -/
theorem witness_FailedPrecondition :
    InvalidParam { regs 0 1 8 with param := 0 } .renc 1 ∧
    InvalidParam { regs 0 1 8 with param := 0xFFFFFFFF } .rdec 1 ∧
    InvalidParam (regs 0 5 8) .henc 2 ∧ InvalidParam (regs 0 6 8) .hdec 3 ∧ InvalidParam (regs 0 6 8) .hdecb 4 ∧
    InvalidParam { regs 0 1 8 with prob := 0x80000001 } (.noise true) 5 ∧
    InvalidParam { regs 0 3 8 with len1 := 4 } .ber 6 ∧ InvalidParam { regs 0 0 8 with len1 := 1 } .succ 6 := by
  simp only [InvalidParam]; decide

/-- RegionErrorsInOrder: HENC with its input one bit too far, its output one bit too far, and its output meeting the
input at the input's last bit. -/
theorem witness_RegionErrors_transducer :
    isTransducer .henc = true ∧
    (∀ c, ¬InvalidParam (regs 65533 4 8) .henc c) ∧ ¬Fits State.reset 65533 4 ∧
    Fits State.reset 65532 4 ∧ ¬Fits State.reset 65530 (outLen .henc (regs 65532 4 65530)) ∧
    Fits State.reset 0 4 ∧ Fits State.reset 3 (outLen .henc (regs 0 4 3)) ∧
    ¬Apart 3 (outLen .henc (regs 0 4 3)) 0 4 := by
  refine ⟨rfl, ?_, ?_, ?_, ?_, ?_, ?_, ?_⟩
  · intro c h
    exact h.2 rfl
  all_goals
    simp only [Fits, Apart]
    decide

/-- RegionErrorsInOrder: BER with its first input, then its second input, one bit too far. -/
theorem witness_RegionErrors_metric :
    isMetric .ber = true ∧
    (∀ c, ¬InvalidParam { regs 65535 2 0 with len1 := 2 } .ber c) ∧ ¬Fits State.reset 65535 2 ∧
    Fits State.reset 65534 2 := by
  refine ⟨rfl, ?_, ?_, ?_⟩
  · intro c h
    exact h.2 rfl
  all_goals
    simp only [Fits]
    decide

/-- BpackPadsToWholeBytes: the output may start where the input ends. -/
theorem witness_Bpack : 16 = 8 * ceilDiv (regs 0 9 9).len0.toNat 8 ∧
    Ready (latchedState 1 (regs 0 9 9) []) (latchOf 1 (regs 0 9 9)) 16 :=
  ⟨by decide, ready_of _ _ _ _ (by decide) (by decide) (by decide)⟩

/-- TpackDropsThePartialByte. -/
theorem witness_Tpack : 8 = 8 * ((regs 0 9 9).len0.toNat / 8) ∧
    Ready (latchedState 2 (regs 0 9 9) []) (latchOf 2 (regs 0 9 9)) 8 :=
  ⟨by decide, ready_of _ _ _ _ (by decide) (by decide) (by decide)⟩

/-- RencRepeatsEachBit, at a repetition factor of 5. -/
theorem witness_Renc : ({ regs 0 2 8 with param := 5 } : Operands).param.toInt = (5 : Nat) ∧
    Ready (latchedState 3 { regs 0 2 8 with param := 5 } []) (latchOf 3 { regs 0 2 8 with param := 5 }) (2 * 5) :=
  ⟨by decide, ready_of _ _ _ _ (by decide) (by decide) (by decide)⟩

/-- RdecVotesPerGroup: two groups, the second one short. -/
theorem witness_Rdec : ({ regs 0 5 8 with param := 3 } : Operands).param.toInt = (3 : Nat) ∧
    Ready (latchedState 4 { regs 0 5 8 with param := 3 } []) (latchOf 4 { regs 0 5 8 with param := 3 })
      (ceilDiv 5 3) :=
  ⟨by decide, ready_of _ _ _ _ (by decide) (by decide) (by decide)⟩

/-- The machine of the RENC of RepetitionRoundTrip. -/
def rencState : State := latchedState 3 { regs 0 2 8 with param := 5 } (cellsFrom 0 [1, 0])

/-- The operands of the RDEC that decodes what it wrote. -/
def rdecOps : Operands := { regs 8 10 24 with param := 5 }

/-- RepetitionRoundTrip. -/
theorem witness_RepetitionRoundTrip :
    Ready rencState (latchOf 3 { regs 0 2 8 with param := 5 }) (2 * 5) ∧ ∃ t, exec .renc rencState = .next t ∧
      ∃ u : State, u.params = rencState.params ∧ u.bm = t.bm ∧ u.latch = some (latchOf 4 rdecOps) ∧
        rdecOps.param = (5 : Word) ∧ rdecOps.src0 = (8 : Word) ∧ rdecOps.len0.toNat = 2 * 5 ∧ RegionsOk u rdecOps 2 :=
  ⟨ready_of _ _ _ _ (by decide) (by decide) (by decide), stateOf (exec .renc rencState), rfl,
    { stateOf (exec .renc rencState) with latch := some (latchOf 4 rdecOps) }, rfl, rfl, rfl, by decide, by decide,
    by decide, regionsOk_of _ _ _ (by decide) (by decide) (by decide)⟩

/-- MajorityVoteCorrects: two flips in five copies, and ties of both kinds. -/
theorem witness_MajorityVote :
    (1 ≤ (seq [1, 0, 1, 0, 1]).length ∧ (seq [1, 0, 1, 0, 1]).countP (· != true) ≤ (5 - 1) / 2) ∧
    2 * (seq [1, 0]).countP (· != false) = (seq [1, 0]).length ∧
    2 * (seq [0, 1]).countP (· != true) = (seq [0, 1]).length := by decide

/-- HencWritesTheCodeword: the output may start where the input ends. -/
theorem witness_Henc : (regs 0 4 4).len0.toNat = 4 ∧
    Ready (latchedState 5 (regs 0 4 4) []) (latchOf 5 (regs 0 4 4)) 7 :=
  ⟨by decide, ready_of _ _ _ _ (by decide) (by decide) (by decide)⟩

/-- HdecCorrectsAtTheSyndrome. -/
theorem witness_Hdec : (regs 8 7 15).len0.toNat = 7 ∧
    Ready (latchedState 6 (regs 8 7 15) []) (latchOf 6 (regs 8 7 15)) 4 :=
  ⟨by decide, ready_of _ _ _ _ (by decide) (by decide) (by decide)⟩

/-- HencbEncodesEachBlock: a last block that is padded. -/
theorem witness_Hencb : 2 = ceilDiv (regs 0 5 8).len0.toNat 4 ∧
    Ready (latchedState 7 (regs 0 5 8) []) (latchOf 7 (regs 0 5 8)) (7 * 2) :=
  ⟨by decide, ready_of _ _ _ _ (by decide) (by decide) (by decide)⟩

/-- HdecbDecodesEachBlock. -/
theorem witness_Hdecb : (regs 0 14 16).len0.toNat = 7 * 2 ∧
    Ready (latchedState 8 (regs 0 14 16) []) (latchOf 8 (regs 0 14 16)) (4 * 2) :=
  ⟨by decide, ready_of _ _ _ _ (by decide) (by decide) (by decide)⟩

/-- The machine of the HENC of HammingCorrectsOneError. -/
def hencState : State := latchedState 5 (regs 0 4 8) (cellsFrom 0 [1, 0, 1, 1])

/-- The machine of the HDEC: what HENC wrote, with codeword index 4 (position 5) flipped. -/
def hdecState : State :=
  { stateOf (exec .henc hencState) with
    latch := some (latchOf 6 (regs 8 7 16)), bm := Memory.set (stateOf (exec .henc hencState)).bm 12 true }

/-- HammingCorrectsOneError with e = 5. -/
theorem witness_HammingCorrectsOneError :
    Ready hencState (latchOf 5 (regs 0 4 8)) 7 ∧
    exec .henc hencState = .next (stateOf (exec .henc hencState)) ∧ hdecState.params = hencState.params ∧
    hdecState.latch = some (latchOf 6 (regs 8 7 16)) ∧
    (∀ i, i < 7 → hdecState.cell (8 + i) =
      ((stateOf (exec .henc hencState)).cell (8 + i)).map fun b => b ^^ decide (i + 1 = 5)) ∧
    RegionsOk hdecState (regs 8 7 16) 4 :=
  ⟨ready_of _ _ _ _ (by decide) (by decide) (by decide), rfl, rfl, rfl, by decide,
    regionsOk_of _ _ _ (by decide) (by decide) (by decide)⟩

/-- SyndromeIsXorOfErrorPositions. -/
theorem witness_Syndrome : (seq [1, 0, 1, 1]).length = 4 ∧ (seq [0, 0, 1, 0, 1, 0, 0]).length = 7 := by decide

/-- The machine of the HENCB of HammingSequenceRoundTrip. -/
def hencbState : State := latchedState 7 (regs 0 5 8) (cellsFrom 0 [1, 0, 1, 1, 1])

/-- HammingSequenceRoundTrip. -/
theorem witness_HammingSequenceRoundTrip :
    Ready hencbState (latchOf 7 (regs 0 5 8)) (7 * 2) ∧ ∃ t, exec .hencb hencbState = .next t ∧
      ∃ u : State, u.params = hencbState.params ∧ u.bm = t.bm ∧ u.latch = some (latchOf 8 (regs 8 14 32)) ∧
        (regs 8 14 32).src0 = (regs 0 5 8).dst ∧ (regs 8 14 32).len0.toNat = 7 * 2 ∧
        RegionsOk u (regs 8 14 32) (4 * 2) :=
  ⟨ready_of _ _ _ _ (by decide) (by decide) (by decide), stateOf (exec .hencb hencbState), rfl,
    { stateOf (exec .hencb hencbState) with latch := some (latchOf 8 (regs 8 14 32)) }, rfl, rfl, rfl, by decide,
    by decide, regionsOk_of _ _ _ (by decide) (by decide) (by decide)⟩

/-- HammingBlocksAreIndependent: two sequences of two blocks that differ in block 1 alone. -/
theorem witness_HammingBlocks :
    (seq [0, 0, 0, 0, 0, 0, 0, 1]).length = (seq [0, 0, 0, 0, 0, 0, 0, 0]).length ∧
    ∀ i, i / 7 ≠ 1 → (seq [0, 0, 0, 0, 0, 0, 0, 1])[i]? = (seq [0, 0, 0, 0, 0, 0, 0, 0])[i]? := by
  refine ⟨rfl, fun i h => ?_⟩
  by_cases hi : i < 8
  · interval_cases i <;> first | rfl | exact absurd rfl h
  · rw [List.getElem?_eq_none (by simp [seq]; omega), List.getElem?_eq_none (by simp [seq]; omega)]

/-- NoiseFlipsBelowTheDraw, UnseededNoiseIsSeededByEntropy, NoiseAtProbabilityZeroAndOne: PROB at both ends. -/
theorem witness_Noise_one : ({ regs 0 16 16 with prob := 0x80000000 } : Operands).prob.toNat = 0x80000000 ∧
    Ready (latchedState 9 { regs 0 16 16 with prob := 0x80000000 } [])
      (latchOf 9 { regs 0 16 16 with prob := 0x80000000 }) 16 :=
  ⟨by decide, ready_of _ _ _ _ (by decide) (by decide) (by decide)⟩

theorem witness_Noise_zero : (regs 0 16 16).prob.toNat = 0 ∧
    Ready (latchedState 9 (regs 0 16 16) []) (latchOf 9 (regs 0 16 16)) 16 :=
  ⟨by decide, ready_of _ _ _ _ (by decide) (by decide) (by decide)⟩

/-- SeededNoiseIsReproducible: the same input at two places. -/
theorem witness_SeededNoise :
    Ready (latchedState 0x109 (regs 0 2 16) (cellsFrom 0 [1, 0])) (latchOf 0x109 (regs 0 2 16)) 2 ∧
    Ready (latchedState 0x109 (regs 8 2 32) (cellsFrom 8 [1, 0])) (latchOf 0x109 (regs 8 2 32)) 2 ∧
    ((regs 0 2 16).prob = (regs 8 2 32).prob ∧ (regs 0 2 16).seed = (regs 8 2 32).seed ∧
      (regs 0 2 16).len0 = (regs 8 2 32).len0 ∧ (regs 0 2 16).prob.toNat ≤ 0x80000000) ∧
    ∀ i, i < 2 → inputBit (latchedState 0x109 (regs 0 2 16) (cellsFrom 0 [1, 0])) (regs 0 2 16) i =
      inputBit (latchedState 0x109 (regs 8 2 32) (cellsFrom 8 [1, 0])) (regs 8 2 32) i :=
  ⟨ready_of _ _ _ _ (by decide) (by decide) (by decide), ready_of _ _ _ _ (by decide) (by decide) (by decide),
    by decide, by decide⟩

/-- BerCountsDifferences, SuccTestsEquality, MetricsOfARegionAgainstItself. -/
theorem witness_Metrics :
    (latchedState 0x0A { regs 65534 2 0 with src1 := 65534, len1 := 2 } []).latch =
      some (latchOf 0x0A { regs 65534 2 0 with src1 := 65534, len1 := 2 }) ∧
    ({ regs 65534 2 0 with src1 := 65534, len1 := 2 } : Operands).len0 = (2 : Word) ∧
    Fits (latchedState 0x0A { regs 65534 2 0 with src1 := 65534, len1 := 2 } []) 65534 2 := by
  refine ⟨rfl, rfl, ?_⟩
  simp only [Fits]
  decide

/-- MetricsOfARegionAgainstItself, its clause about written cells. -/
theorem witness_Metrics_written :
    (latchedState 0x0A { regs 8 2 0 with src1 := 8, len1 := 2 } (cellsFrom 8 [1, 0])).latch =
      some (latchOf 0x0A { regs 8 2 0 with src1 := 8, len1 := 2 }) ∧
    8 + 2 ≤ (latchedState 0x0A { regs 8 2 0 with src1 := 8, len1 := 2 } (cellsFrom 8 [1, 0])).params.bmBits ∧
    ∀ i, i < 2 →
      (latchedState 0x0A { regs 8 2 0 with src1 := 8, len1 := 2 } (cellsFrom 8 [1, 0])).cell (8 + i) ≠ none := by decide

/-- MetricsOfARegionAgainstItself, its last clause: unequal lengths. -/
theorem witness_Metrics_lengths :
    (latchedState 0x0A { regs 0 3 0 with len1 := 4 } []).latch = some (latchOf 0x0A { regs 0 3 0 with len1 := 4 }) ∧
    ({ regs 0 3 0 with len1 := 4 } : Operands).len0 ≠ ({ regs 0 3 0 with len1 := 4 } : Operands).len1 := by decide

/-- TstartStartsTheTimer, TstopFreezesTheInterval, TreadReadsTheInterval: a latched command in each timer state. -/
theorem witness_Timer :
    (latchedState 0x0D .reset []).tstate = .idle ∧
    ({ latchedState 0x0D .reset [] with tstate := .running } : State).tstate = .running ∧
    ({ latchedState 0x0E .reset [] with tstate := .stopped } : State).tstate = .stopped := by decide

/-- The three machines of TimerMeasuresStartToStop. -/
def startState : State := { latchedState 0x0C .reset [] with now := 5 }
def stopState : State := { stateOf (exec .tstart startState) with latch := some (latchOf 0x0D .reset), now := 201 }
def readState : State := { stateOf (exec .tstop stopState) with latch := some (latchOf 0x0E .reset), now := 900 }

/-- TimerMeasuresStartToStop. -/
theorem witness_TimerMeasures :
    exec .tstart startState = .next (stateOf (exec .tstart startState)) ∧
    stopState.latch = some (latchOf 0x0D .reset) ∧ KeepsTimer (stateOf (exec .tstart startState)) stopState ∧
    exec .tstop stopState = .next (stateOf (exec .tstop stopState)) ∧
    readState.latch = some (latchOf 0x0E .reset) ∧ KeepsTimer (stateOf (exec .tstop stopState)) readState :=
  ⟨rfl, rfl, ⟨rfl, rfl, rfl⟩, rfl, rfl, ⟨rfl, rfl, rfl⟩⟩

/-- WindowReadIsBigEndian, WindowWriteIsBigEndian: the first byte and the last aligned word of the window. -/
theorem witness_Window :
    State.reset.params.wf = true ∧ State.reset.busy = false ∧
    ((0x00010000 : Word).toNat % widthBytes .w8 = 0 ∧ State.reset.params.winBase ≤ (0x00010000 : Word).toNat) ∧
    ((0x00011FFC : Word).toNat % widthBytes .w32 = 0 ∧
      (0x00011FFC : Word).toNat < State.reset.params.winBase + State.reset.params.bmBits / 8) := by decide

/-- AccessWithoutEffectSetsAccerr: a value at the edge of each clause. -/
theorem witness_AccessWithoutEffect :
    (0x00010001 : Word).toNat % widthBytes .w16 ≠ 0 ∧
    ((0xFF : Word).toNat < 0x100 ∧ Width.w8 ≠ .w32) ∧
    (0x44 ≤ (0x44 : Word).toNat ∧ (0x44 : Word).toNat < 0x100) ∧
    (0x100 ≤ (0x100 : Word).toNat ∧ (0x100 : Word).toNat < State.reset.params.winBase) ∧
    State.reset.params.winBase + State.reset.params.bmBits / 8 ≤ (0x00012000 : Word).toNat ∧
    (State.reset.params.winBase ≤ (0x00010000 : Word).toNat ∧ (latchedState 1 .reset []).busy = true) := by decide

/-- OperandAndIrqenWriteReadBack, ReadOnlyRegistersIgnoreWrites. -/
theorem witness_registerLists :
    (0x10 : Word) ∈ [(0x10 : Word), 0x14, 0x18, 0x1C, 0x20, 0x24, 0x28, 0x2C] ∧
    (0x40 : Word) ∈ [(0x00 : Word), 0x30, 0x34, 0x38, 0x3C, 0x40] := by decide

/-- InterruptLevel: a busy engine that steps, a STATUS write with bit 1 set, an idle machine. -/
theorem witness_InterruptLevel : (∃ t, engineTurn (latchedState 0x10F .reset []) = .next t) ∧
    (latchedState 0x10F .reset []).busy = true ∧ (0x12 : Word).getLsbD 1 = true ∧ State.reset.busy = false :=
  ⟨⟨_, rfl⟩, rfl, by decide, rfl⟩

/-- NowChangesOnlyInTimeBaseSteps: a scheduled time-base step, an idle machine, and a rst step. -/
theorem witness_NowChanges :
    ({ State.reset with sched := [.timeBase 7] } : State).sched = [.timeBase 7] ∧
    (State.reset.sched = [] ∧ State.reset.busy = false ∧ State.reset.port = []) ∧
    ({ State.reset with sched := [.rst] } : State).sched = [.rst] ∧
    (∃ t, step { State.reset with sched := [.rst] } = .next t) :=
  ⟨rfl, ⟨rfl, rfl, rfl⟩, rfl, _, rfl⟩

/-- NowChangesOnlyInTimeBaseSteps, its clause on the other steps: a listed host step, a listed engine step, and a busy
engine and a waiting host with no turn listed. -/
theorem witness_NowChanges_other :
    ((∀ k rest, ({ State.reset with sched := [.host] } : State).sched ≠ .timeBase k :: rest) ∧
      (∀ rest, ({ State.reset with sched := [.host] } : State).sched ≠ .rst :: rest) ∧
      ∃ t, step { State.reset with sched := [.host] } = .next t) ∧
    (∃ t, step { latchedState 0x0C .reset [] with sched := [.engine] } = .next t) ∧
    ((latchedState 0x0C .reset []).busy = true ∧ ∃ t, step (latchedState 0x0C .reset []) = .next t) ∧
    ((loadScript State.reset [.rd .status]).port ≠ [] ∧ ∃ t, step (loadScript State.reset [.rd .status]) = .next t) :=
  ⟨⟨fun _ _ h => by simp at h, fun _ h => by simp at h, _, rfl⟩, ⟨_, rfl⟩, ⟨rfl, _, rfl⟩, by decide, _, rfl⟩

/-- HostReadHasNoSideEffect: legal parameters, an access with an effect at the last register and one without right
after it. -/
theorem witness_HostRead : State.reset.params.wf = true ∧ target State.reset .w32 0x40 = .reg .bmsize ∧
    target State.reset .w32 0x44 = .noEffect := by decide

/-- HostTurnMakesTheNextAccess: an access, a wait loop and an empty port, with the host's turn listed and not. -/
theorem witness_HostTurn :
    ({ loadScript State.reset [.rd .status] with sched := [.host] } : State).sched = [.host] ∧
    (loadScript State.reset [.rd .status]).port = [.access (.read .w32 0x08)] ∧
    (loadScript State.reset [.wait]).port = [.waitDone] ∧
    ((loadScript State.reset [.wait]).sched = [] ∧ (loadScript State.reset [.wait]).busy = false) ∧
    State.reset.port = [] := by decide

/-- The operands of a BER of two overlapping regions. -/
def overlappingOps : Operands := { regs 0 2 0 with src1 := 1, len1 := 2 }

/-- UnwrittenCellsReadAsFreeDraws: a written and an unwritten cell, and two overlapping unwritten regions. -/
theorem witness_UnwrittenCells :
    ((machine .reset (cellsFrom 8 [1])).cell 8 = some true ∧ (machine .reset (cellsFrom 8 [1])).cell 9 = none) ∧
    (latchedState 0x0A overlappingOps []).latch = some (latchOf 0x0A overlappingOps) ∧
    overlappingOps.len0 = overlappingOps.len1 ∧
    (0 + 2 ≤ (latchedState 0x0A overlappingOps []).params.bmBits ∧
      1 + 2 ≤ (latchedState 0x0A overlappingOps []).params.bmBits) ∧
    ∀ i, i < 2 → (latchedState 0x0A overlappingOps []).cell (0 + i) = none ∧
      (latchedState 0x0A overlappingOps []).cell (1 + i) = none := by decide

/-- ResetValues: a machine in use, at a clock edge with `rst` asserted. -/
theorem witness_ResetValues :
    ∃ t, (∃ rest, ({ hencState with sched := [.rst] } : State).sched = .rst :: rest) ∧
      step { hencState with sched := [.rst] } = .next t :=
  ⟨_, ⟨[], rfl⟩, rfl⟩

/-- A machine whose codeword HENC has written, with an HDEC just accepted. -/
def busyState : State := accept (stateOf (exec .henc hencState)) 6

/-- StepKeepsTheInvariant: a busy machine with written cells meets the invariant and steps. -/
theorem witness_StepKeepsTheInvariant : busyState.Inv ∧ ∃ t, step busyState = .next t := by
  refine ⟨⟨by decide, by decide, by decide, by decide, by decide, ?_, by decide, by decide⟩, _, rfl⟩
  intro L h
  injection h with h
  rw [← h]
  rfl

/-- WaitLoopEnds. -/
theorem witness_WaitLoopEnds :
    ({ hencState with port := [.waitDone] } : State).busy = true ∧
    ({ hencState with port := [.waitDone] } : State).sched = [] := by decide

/-- RunLineRunsItsCommand. -/
theorem witness_RunLine :
    (loadScript State.reset [.run .henc, .clr]).busy = false ∧ (loadScript State.reset [.run .henc, .clr]).sched = [] ∧
    (loadScript State.reset [.run .henc, .clr]).port =
      lineOps State.reset.params (.run .henc) ++ lineOps State.reset.params .clr := by decide

end Sys2Proof.Tests
end

/-! PROOF. The invariant `State.Inv`: each operation of the machine keeps it, and so does every step.
An operation's lemma names the clauses it touches; `{ h with … }` carries over the clauses about fields it leaves. -/

namespace Sys2Proof.Machine

/-! ## The operations on memory and on the life of a command -/

/-- 20_memory.md R64; an empty output may name any address. -/
theorem State.Inv.memWrite {s : State} (h : s.Inv) (a : Nat) (bits : BitSeq)
    (hfit : bits = [] ∨ Fits s a bits.length) : (memWrite s a bits).Inv := by
  refine { h with memory_sorted := Memory.wf_setBits _ a bits h.memory_sorted, memory_below := ?_ }
  rcases hfit with rfl | hfit
  · exact h.memory_below
  · exact Memory.below_setBits _ _ a bits hfit h.memory_below

/-- 40_command_engine.md R127. -/
theorem State.Inv.raiseError {s : State} (h : s.Inv) (e : CmdError) : (raiseError e s).Inv :=
  { h with
    codes_legal := error_legal e
    busy_clear := by simp
    latch_cmd := by simp
    error_results := fun _ => ⟨rfl, rfl, rfl⟩
    outlen_bound := Nat.zero_le _ }

/-- 40_command_engine.md R128. -/
theorem State.Inv.complete {s : State} (h : s.Inv) (outlen res0 res1 : Word)
    (hout : outlen.toNat ≤ s.params.bmBits) : (complete outlen res0 res1 s).Inv :=
  { h with
    codes_legal := ⟨rfl, rfl⟩
    busy_clear := by simp
    latch_cmd := by simp
    error_results := by simp
    outlen_bound := hout }

/-- 40_command_engine.md R120. -/
theorem State.Inv.accept {s : State} (h : s.Inv) (w : Word) : (accept s w).Inv :=
  { h with
    codes_legal := ⟨rfl, rfl⟩
    busy_clear := fun _ => ⟨rfl, rfl⟩
    latch_cmd := by simp
    error_results := by simp }

/-- A change of STATUS that leaves ERR and the codes and does not set DONE. -/
theorem State.Inv.withStatus {s : State} (h : s.Inv) (st : Status) (herr : st.err = s.status.err)
    (hcode : st.ecode = s.status.ecode) (hcause : st.ecause = s.status.ecause)
    (hdone : s.status.done = false → st.done = false) : State.Inv { s with status := st } :=
  { h with
    codes_legal := by simpa only [herr, hcode, hcause] using h.codes_legal
    busy_clear := fun hb =>
      have ⟨hd, he⟩ := h.busy_clear hb
      ⟨hdone hd, herr.trans he⟩
    error_results := fun he => h.error_results (herr.symm.trans he) }

/-! ## The host's turn -/

/-- An access with no effect (10_state.md R31). -/
theorem State.Inv.accessError {s : State} (h : s.Inv) : (accessError s).Inv := h.withStatus _ rfl rfl rfl id

/-- A write of CMD: dropped with OVR while BUSY, else accepted (40_command_engine.md R120). -/
theorem State.Inv.offerCommand {s : State} (h : s.Inv) (w : Word) : (offerCommand s w).Inv := by
  unfold Machine.offerCommand
  split
  · exact h.withStatus _ rfl rfl rfl id
  · exact h.accept w

/-- A write reaches STATUS, CMD, or a field the invariant does not speak of. -/
theorem State.Inv.regWrite {s : State} (h : s.Inv) (r : Reg) (v : Word) : (regWrite s r v).Inv := by
  cases r with
  | cmd => exact h.offerCommand v
  | status => exact h.withStatus _ rfl rfl rfl fun hd => by simp [statusWritten, hd]
  | _ => exact { h with }

theorem State.Inv.hostRead {s : State} (h : s.Inv) (w : Width) (a : Word) : (hostRead s w a).Inv := by
  unfold Machine.hostRead
  split
  · exact { h with }
  · exact { h with }
  · exact State.Inv.accessError { h with }

/-- A window access names cells of the bit memory only (20_memory.md R60, R65). -/
theorem window_fits (s : State) (w : Width) (a : Word) (bit : Nat) (ht : target s w a = .window bit) :
    Fits s bit (8 * widthBytes w) := by
  rcases target_cases s w a with hn | ⟨r, hr⟩ | ⟨hw, -, hlow, hhigh⟩
  · simp [hn] at ht
  · simp [hr] at ht
  · rw [hw, Target.window.injEq] at ht
    unfold Fits
    omega

theorem State.Inv.hostWrite {s : State} (h : s.Inv) (w : Width) (a data : Word) : (hostWrite s w a data).Inv := by
  unfold Machine.hostWrite
  split
  · exact h.regWrite _ data
  · next bit ht => exact h.memWrite bit _ (.inr (by simpa using window_fits s w a bit ht))
  · exact h.accessError

theorem State.Inv.hostAccess {s : State} (h : s.Inv) (a : Access) : (hostAccess s a).Inv := by
  cases a with
  | read w a => exact h.hostRead w a
  | write w a data => exact h.hostWrite w a data

theorem State.Inv.hostTurn {s : State} (h : s.Inv) : (hostTurn s).Inv := by
  rcases hostTurn_cases s with ⟨-, ht⟩ | ⟨a, rest, -, ht⟩ | ⟨rest, v, -, -, ht⟩
  · rwa [ht]
  · have hrest : State.Inv { s with port := rest } := { h with }
    rw [ht]
    exact hrest.hostAccess a
  · rw [ht]
    exact { h with }

/-! ## The engine's turn, the `rst` turn, and the step -/

/-- OUTLEN is the output length, which the range check of DST bounds (30_encoding.md R99, R100). -/
theorem State.Inv.finishes {i : Instr} {s t : State} {L : Operands} (h : s.Inv) (hf : Finishes i s t L) : t.Inv := by
  obtain ⟨bits, r0, r1, ts, a, b, hlen, hfit, -, rfl⟩ := hf
  have hbits : bits = [] ∨ Fits s (dstAt L) bits.length :=
    hfit.imp (fun h0 => List.eq_nil_of_length_eq_zero (hlen.trans h0)) fun hd => hlen ▸ hd
  have hout : (regValue (outLen i L)).toNat ≤ s.params.bmBits := by
    have hle : (regValue (outLen i L)).toNat ≤ outLen i L := by
      rw [regValue, BitVec.toNat_ofNat]
      exact Nat.mod_le _ _
    unfold Fits at hfit
    omega
  have hwritten : State.Inv { Machine.memWrite s (dstAt L) bits with tstate := ts, t0 := a, t1 := b } :=
    { h.memWrite (dstAt L) bits hbits with }
  exact hwritten.complete _ r0 r1 hout

theorem State.Inv.engineTurn {s t : State} (h : s.Inv) (ht : engineTurn s = .next t) : t.Inv := by
  rcases engineTurn_cases s t ht with ⟨-, rfl⟩ | ⟨L, e, -, -, rfl⟩ | ⟨L, i, -, -, hx⟩
  · exact h
  · exact h.raiseError _
  · obtain ⟨L, -, ⟨e, rfl⟩ | hf⟩ := exec_cases i s t hx
    · exact h.raiseError e
    · exact h.finishes hf

/-- After `rst` every clause but that on the parameters is one about the reset values (70_reset_and_hazards.md R320). -/
theorem State.Inv.resetTurn {s : State} (h : s.Inv) : (resetTurn s).Inv where
  params_legal := h.params_legal
  memory_sorted := rfl
  memory_below := rfl
  codes_legal := ⟨rfl, rfl⟩
  busy_clear := fun _ => ⟨rfl, rfl⟩
  latch_cmd := nofun
  error_results := nofun
  outlen_bound := Nat.zero_le _

theorem State.Inv.takeTurn {s t : State} (h : s.Inv) (turn : Turn) (ht : takeTurn turn s = .next t) : t.Inv := by
  cases turn with
  | host => exact Host.Outcome.next.inj ht ▸ h.hostTurn
  | engine => exact h.engineTurn ht
  | timeBase k => exact Host.Outcome.next.inj ht ▸ { h with }
  | rst => exact Host.Outcome.next.inj ht ▸ h.resetTurn

/-- Settles O56: a step is a turn of the host, the engine, the time base or `rst`, and each keeps the invariant. -/
theorem stepKeepsTheInvariant : Obligations.StepKeepsTheInvariant := by
  unfold Obligations.StepKeepsTheInvariant
  intro s t h hstep
  obtain ⟨turn, hturn⟩ := step_is_a_turn s
  have hbegun : State.Inv { beginStep s with sched := s.sched.tail } := { h with }
  exact hbegun.takeTurn turn (hturn.symm.trans hstep)

end Sys2Proof.Machine

/-! PROOF. The register block as the host reads and writes it (10_state.md section 3), and the accesses with no effect. -/

namespace Sys2Proof.Machine

/-! ## An access at a register's own address -/

theorem regAt_regAddr (r : Reg) : regAt (regAddr r).toNat = some r := by cases r <;> decide

theorem regAddr_aligned (r : Reg) : (regAddr r).toNat % 4 = 0 := by cases r <;> decide

theorem regAddr_lt (r : Reg) : (regAddr r).toNat < 0x44 := by cases r <;> decide

theorem hostWrite_regAddr (s : State) (r : Reg) (v : Word) :
    hostAccess s (.write .w32 (regAddr r) v) = regWrite s r v :=
  hostWrite_reg s _ v r (regAt_regAddr r) (regAddr_aligned r) (by have := regAddr_lt r; omega)

theorem hostRead_regAddr (s : State) (r : Reg) :
    hostAccess s (.read .w32 (regAddr r)) = { s with rdata := regRead s r } :=
  hostRead_reg s _ r (regAt_regAddr r) (regAddr_aligned r) (by have := regAddr_lt r; omega)

/-- A register read right after it was written. -/
theorem rdata_read_after_write (s : State) (r : Reg) (v : Word) :
    (hostAccess (hostAccess s (.write .w32 (regAddr r) v)) (.read .w32 (regAddr r))).rdata =
      regRead (regWrite s r v) r := by
  rw [hostWrite_regAddr, hostRead_regAddr]

/-! ## Accesses with no effect -/

/-- Only the listed offsets hold a register (10_state.md R23, R42). -/
theorem regAt_eq_none_iff (n : Nat) (h4 : n % 4 = 0) : regAt n = none ↔ 0x44 ≤ n := by
  constructor
  · intro hn
    by_contra hlt
    have hall : ∀ k, k < 0x44 → k % 4 = 0 → regAt k ≠ none := by decide
    exact hall n (by omega) h4 hn
  · intro hn
    rw [regAt, List.find?_eq_none]
    intro r _ hr
    have hoff : regOffset r < 0x44 := by cases r <;> decide
    rw [beq_iff_eq] at hr
    omega

/-- With legal parameters an aligned access that starts in the window ends in it (20_memory.md R65; log 21). -/
theorem aligned_ends_in_window (p : Config.Params) (w : Width) (n : Nat) (hp : p.wf = true)
    (hn : n % widthBytes w = 0) :
    n + widthBytes w ≤ p.winBase + p.bmBits / 8 ↔ n < p.winBase + p.bmBits / 8 := by
  simp only [Config.Params.wf, Bool.and_eq_true, beq_iff_eq] at hp
  obtain ⟨⟨⟨⟨⟨hbm, -⟩, -⟩, hwin⟩, -⟩, -⟩ := hp
  have hend : (p.winBase + p.bmBits / 8) % 4 = 0 := by omega
  cases w <;> simp only [widthBytes] at hn ⊢ <;> omega

/-- With legal parameters, the accesses with no effect are those R31, R42, R62, R65 and R67 name. -/
theorem target_eq_noEffect_iff (s : State) (w : Width) (a : Word) (hp : s.params.wf = true) :
    target s w a = .noEffect ↔
      a.toNat % widthBytes w ≠ 0 ∨ (a.toNat < 0x100 ∧ w ≠ .w32) ∨ (0x44 ≤ a.toNat ∧ a.toNat < 0x100) ∨
        (0x100 ≤ a.toNat ∧ a.toNat < s.params.winBase) ∨ s.params.winBase + s.params.bmBits / 8 ≤ a.toNat ∨
        (s.params.winBase ≤ a.toNat ∧ s.busy = true) := by
  obtain ⟨-, -, -, hwin, -⟩ := params_bounds s hp
  simp only [target, uint32]
  split_ifs with hmis hblock hw hin hbusy
  · exact iff_of_true rfl (.inl hmis)
  · subst hw
    have h4 : a.toNat % 4 = 0 := not_not.1 hmis
    have hnone := regAt_eq_none_iff a.toNat h4
    cases hr : regAt a.toNat with
    | none => exact iff_of_true rfl (.inr (.inr (.inl ⟨hnone.1 hr, hblock⟩)))
    | some r =>
      have hlt : ¬0x44 ≤ a.toNat := fun hge => by simp [hnone.2 hge] at hr
      exact iff_of_false nofun (by simp only [hmis, ne_eq, not_true_eq_false, and_false, false_or]; omega)
  · exact iff_of_true rfl (.inr (.inl ⟨hblock, hw⟩))
  all_goals
    have hend := aligned_ends_in_window s.params w a.toNat hp (not_not.1 hmis)
    simp only [inWindow, Bool.and_eq_true, decide_eq_true_eq, hend] at hin
  · exact iff_of_true rfl (by simp [hin.1, hbusy])
  · exact iff_of_false nofun (by
      simp only [hmis, hblock, hbusy, Bool.false_eq_true, false_and, and_false, or_false, false_or]; omega)
  · exact iff_of_true rfl (by omega)

/-- Settles O45: the listed accesses are those with no effect. -/
theorem accessWithoutEffectSetsAccerr : Obligations.AccessWithoutEffectSetsAccerr := by
  unfold Obligations.AccessWithoutEffectSetsAccerr
  intro s w a data hp hcause
  exact hostAccess_noEffect s w a data ((target_eq_noEffect_iff s w a hp).2 hcause)

/-! ## What the host reads -/

/-- 10_state.md R40. -/
theorem timerCode_eq_iff (ts : TimerState) :
    (timerCode ts = 0 ↔ ts = .idle) ∧ (timerCode ts = 1 ↔ ts = .running) ∧ (timerCode ts = 2 ↔ ts = .stopped) := by
  cases ts <;> decide

/-- Settles O47: each offset is the address of its register. -/
theorem registerReadValues : Obligations.RegisterReadValues := by
  unfold Obligations.RegisterReadValues
  intro s
  refine ⟨hostRead_regAddr s .id, hostRead_regAddr s .cmd, hostRead_regAddr s .outlen, hostRead_regAddr s .res0,
    hostRead_regAddr s .res1, ⟨_, hostRead_regAddr s .tstate, timerCode_eq_iff s.tstate⟩,
    fun hp => ⟨_, hostRead_regAddr s .bmsize, regValue_toNat _ ?_⟩⟩
  have hbits := params_bounds s hp
  omega

/-- The layout of 10_state.md R26: five flags, ECODE in bits 11:8, ECAUSE in bits 23:16. -/
theorem statusWord_getLsbD (busy : Bool) (st : Status) (i : Nat) : (statusWord busy st).getLsbD i =
    if i < 8 then [busy, st.done, st.err, st.ovr, st.accerr].getD i false
    else if i < 16 then st.ecode.getLsbD (i - 8)
    else st.ecause.getLsbD (i - 16) := by
  simp only [statusWord, BitVec.getLsbD_append]
  by_cases hi : i < 8
  · interval_cases i <;> simp
  · grind

/-- A field of a word, by its bits. -/
theorem extractLsb'_eq_of_bits {n : Nat} (v : Word) (start : Nat) (f : BitVec n)
    (h : ∀ j, j < n → v.getLsbD (start + j) = f.getLsbD j) : v.extractLsb' start n = f := by
  apply BitVec.eq_of_getLsbD_eq
  intro j hj
  simp [hj, h j hj]

/-- Settles O48: the flags by their bits, each field and each reserved field bit by bit. -/
theorem statusReadLayout : Obligations.StatusReadLayout := by
  unfold Obligations.StatusReadLayout
  intro s
  have hbit := statusWord_getLsbD s.busy s.status
  refine ⟨_, hostRead_regAddr s .status, hbit 0, hbit 1, hbit 2, hbit 3, hbit 4, ?_, ?_, ?_, ?_, ?_⟩
  all_goals
    refine extractLsb'_eq_of_bits _ _ _ fun j hj => ?_
    rw [regRead, hbit]
    grind

/-! ## What the host writes -/

/-- Settles O49. -/
theorem statusWriteClearsNamedBits : Obligations.StatusWriteClearsNamedBits := by
  unfold Obligations.StatusWriteClearsNamedBits
  intro s v
  exact ⟨statusWritten v s.status, hostWrite_regAddr s .status v, rfl, rfl, rfl, rfl, rfl, rfl⟩

/-- The operand registers (10_state.md R35). -/
def operandRegs : List Reg := [.src0, .src1, .dst, .len0, .len1, .param, .prob, .seed]

theorem regRead_regWrite_operand (s : State) (r : Reg) (v : Word) (hr : r ∈ operandRegs) :
    regRead (regWrite s r v) r = v := by
  simp only [operandRegs, List.mem_cons, List.not_mem_nil, or_false] at hr
  rcases hr with rfl | rfl | rfl | rfl | rfl | rfl | rfl | rfl <;> rfl

/-- IRQEN keeps bit 0 alone (10_state.md R34). -/
theorem regRead_regWrite_irqen (s : State) (v : Word) : regRead (regWrite s .irqen v) .irqen = v &&& 1 := by
  apply BitVec.eq_of_getLsbD_eq
  intro i hi
  simp only [regRead, regWrite, BitVec.getLsbD_append]
  grind

/-- Settles O50: each operand address is its register's, and a read back is a read after a write. -/
theorem operandAndIrqenWriteReadBack : Obligations.OperandAndIrqenWriteReadBack := by
  unfold Obligations.OperandAndIrqenWriteReadBack
  intro s v
  refine ⟨hostWrite_regAddr s .src0 v, hostWrite_regAddr s .src1 v, hostWrite_regAddr s .dst v,
    hostWrite_regAddr s .len0 v, hostWrite_regAddr s .len1 v, hostWrite_regAddr s .param v,
    hostWrite_regAddr s .prob v, hostWrite_regAddr s .seed v, fun a ha => ?_, hostWrite_regAddr s .irqen v,
    (rdata_read_after_write s .irqen v).trans (regRead_regWrite_irqen s v)⟩
  obtain ⟨r, hr, rfl⟩ := List.mem_map.1 (show a ∈ operandRegs.map regAddr from ha)
  exact (rdata_read_after_write s r v).trans (regRead_regWrite_operand s r v hr)

/-- The read-only registers (10_state.md R23). -/
def readOnlyRegs : List Reg := [.id, .outlen, .res0, .res1, .tstate, .bmsize]

theorem regWrite_readOnly (s : State) (r : Reg) (v : Word) (hr : r ∈ readOnlyRegs) : regWrite s r v = s := by
  simp only [readOnlyRegs, List.mem_cons, List.not_mem_nil, or_false] at hr
  rcases hr with rfl | rfl | rfl | rfl | rfl | rfl <;> rfl

/-- Settles O51. -/
theorem readOnlyRegistersIgnoreWrites : Obligations.ReadOnlyRegistersIgnoreWrites := by
  unfold Obligations.ReadOnlyRegistersIgnoreWrites
  intro s a v ha
  obtain ⟨r, hr, rfl⟩ := List.mem_map.1 (show a ∈ readOnlyRegs.map regAddr from ha)
  exact (hostWrite_regAddr s r v).trans (regWrite_readOnly s r v hr)

/-! ## Reads of unwritten cells -/

/-- R21: what a read of a cell answers, by whether anything has written it. -/
theorem readBit_of_written (s : State) (k x : Nat) (b : Bit) (h : s.cell x = some b) : readBit s k x = b := by
  simp only [readBit, h, Option.getD_some]

theorem readBit_of_unwritten (s : State) (k x : Nat) (h : s.cell x = none) :
    readBit s k x = Config.freeBit s.draws k x := by
  simp only [readBit, h, Option.getD_none, unwrittenBit]

/-- The mismatches of two MemReads of equal length, position by position (45_metrics.md R250). -/
theorem mismatches_memRead (s : State) (k l a b n : Nat) :
    mismatches (memRead s k a n) (memRead s l b n) =
      countBelow n fun i => readBit s k (a + i) != readBit s l (b + i) := by
  rw [mismatches, memRead, memRead, List.zip_map', List.countP_map, List.countP_eq_length_filter]
  rfl

/-- BER whose checks all pass (45_metrics.md R251). -/
theorem exec_ber_completes (s : State) (L : Latch) (hl : s.latch = some L) (hlen : L.ops.len0 = L.ops.len1)
    (h0 : Fits s L.ops.src0.toNat L.ops.len0.toNat) (h1 : Fits s L.ops.src1.toNat L.ops.len1.toNat) :
    ∃ t, exec .ber s = .next t ∧ Completed s t 0 (differences s L.ops) L.ops.len0.toNat ∧ OnlyWrites s t 0 0 := by
  have hbody : bodyOf .ber s L.ops = compareRegions s L.ops fun a b => mismatches a b := by
    simp only [bodyOf, bodyBer, len0Of, len1Of, hlen, decide_true, require_true]
  have hcount : mismatches (memRead s 0 (src0At L.ops) (len0Of L.ops)) (memRead s 1 (src1At L.ops) (len1Of L.ops)) =
      differences s L.ops := by
    rw [show len1Of L.ops = len0Of L.ops from congrArg BitVec.toNat hlen.symm]
    exact mismatches_memRead ..
  exact compareRegions_result .ber s L _ _ hl hbody h0 h1 hcount ((countBelow_le _ _).trans_lt L.ops.len0.isLt)

/-- Settles O60: over unwritten regions every position BER compares is a pair of draws. -/
theorem unwrittenCellsReadAsFreeDraws : Obligations.UnwrittenCellsReadAsFreeDraws := by
  unfold Obligations.UnwrittenCellsReadAsFreeDraws
  refine ⟨readBit_of_written, readBit_of_unwritten, fun s L hl hlen h0 h1 hcells => ?_⟩
  obtain ⟨t, ht, hdone, -⟩ := exec_ber_completes s L hl hlen h0 h1
  refine ⟨t, ht, hdone.res0_eq.trans (countBelow_congr _ _ _ fun i hi => ?_)⟩
  obtain ⟨hfirst, hsecond⟩ := hcells i hi
  rw [inputBit, secondBit, readBit_of_unwritten s 0 _ hfirst, readBit_of_unwritten s 1 _ hsecond]

end Sys2Proof.Machine

/-! PROOF. The bit memory (20_memory.md R63, R64), the host's access to it through the window (R60-R62, R68), and the
order of steps (R74). -/

namespace Sys2Proof.Machine

/-! ## MemWrite and MemRead -/

theorem keepsCells_memWrite (s : State) (a : Nat) (bits : BitSeq) :
    KeepsCells s (memWrite s a bits) a bits.length := fun x hx =>
  ⟨cell_memWrite_outside s a x bits hx, fun k => readBit_memWrite_outside s k a x bits hx⟩

theorem memRead_memWrite_same (s : State) (k a : Nat) (bits : BitSeq) :
    memRead (memWrite s a bits) k a bits.length = bits :=
  List.ext_getElem (memRead_length ..) fun i hi hb => by
    rw [memRead_getElem _ _ _ _ _ hi, readBit_memWrite_inside s k a i bits hb]

/-- Settles O42. -/
theorem memWriteSetsExactlyItsRegion : Obligations.MemWriteSetsExactlyItsRegion := by
  unfold Obligations.MemWriteSetsExactlyItsRegion
  intro s a bits
  exact ⟨⟨_, rfl⟩,
    fun i hi => (cell_memWrite_inside s a i bits hi).trans (List.getElem?_eq_getElem hi),
    keepsCells_memWrite s a bits,
    fun k => memRead_memWrite_same s k a bits,
    fun _ => rfl,
    fun k n i hi => memRead_getElem? s k a n i hi⟩

/-! ## What an access does, by where it goes -/

theorem hostAccess_read_of_reg {s : State} {w : Width} {a : Word} {r : Reg} (h : target s w a = .reg r) :
    hostAccess s (.read w a) = { s with rdata := regRead s r } := by
  simp only [hostAccess, hostRead, h]

theorem hostAccess_read_of_window {s : State} {w : Width} {a : Word} {bit : Nat} (h : target s w a = .window bit) :
    hostAccess s (.read w a) = { s with rdata := regValue (packBits (memRead s 0 bit (8 * widthBytes w))) } := by
  simp only [hostAccess, hostRead, h]

theorem hostAccess_write_of_window {s : State} {w : Width} {a : Word} {bit : Nat} (data : Word)
    (h : target s w a = .window bit) :
    hostAccess s (.write w a data) = memWrite s bit (unpackBits (8 * widthBytes w) data) := by
  simp only [hostAccess, hostWrite, h]

/-- Settles O46: a read answers from a register or from the window and leaves STATUS, or it has no effect. -/
theorem hostReadHasNoSideEffect : Obligations.HostReadHasNoSideEffect := by
  unfold Obligations.HostReadHasNoSideEffect
  intro s w a
  refine ⟨?_, target_eq_noEffect_iff s w a⟩
  cases ht : target s w a with
  | reg r => exact ⟨_, by simpa using hostAccess_read_of_reg ht⟩
  | window bit => exact ⟨_, by simpa using hostAccess_read_of_window ht⟩
  | noEffect => exact ⟨0, by simpa [accessError] using (hostAccess_noEffect s w a 0 ht).1⟩

/-! ## The window -/

/-- With legal parameters and BUSY 0, an aligned access that starts in the window goes to the cells of its bytes
(20_memory.md R60, R62, R65, R67). -/
theorem target_window {s : State} {w : Width} {a : Word} (hp : s.params.wf = true) (hidle : s.busy = false)
    (halign : a.toNat % widthBytes w = 0) (hlow : s.params.winBase ≤ a.toNat)
    (hhigh : a.toNat < s.params.winBase + s.params.bmBits / 8) :
    target s w a = .window (8 * (a.toNat - s.params.winBase)) := by
  obtain ⟨-, -, -, hwin, -⟩ := params_bounds s hp
  have hend := (aligned_ends_in_window s.params w a.toNat hp halign).2 hhigh
  have hin : inWindow s.params w a.toNat = true := by simp [inWindow, hlow, hend]
  have hblock : ¬a.toNat < 0x100 := by omega
  simp [target, uint32, halign, hblock, hin, hidle]

theorem widthBytes_le (w : Width) : widthBytes w ≤ 4 := by cases w <;> decide

/-- The packed value of up to 32 bits as a register value: bit `b` is the bit `b` places before the last, and the
bits above the sequence are 0 (20_memory.md R61, R62). -/
theorem regValue_packBits_getLsbD (l : BitSeq) (b : Nat) (hl : l.length ≤ 32) :
    (regValue (packBits l)).getLsbD b = if b < l.length then bitAt l (l.length - 1 - b) else false := by
  rw [regValue, BitVec.getLsbD_ofNat]
  split_ifs with hb
  · rw [packBits_testBit l b hb, bitAt, decide_eq_true (show b < 32 by omega), Bool.true_and]
  · have hlt : packBits l < 2 ^ b := (packBits_lt l).trans_le (Nat.pow_le_pow_right (by omega) (by omega))
    rw [Nat.testBit_lt_two_pow hlt, Bool.and_false]

/-- Bit `b` of the data written is the bit `b` places before the last of its sequence. -/
theorem unpackBits_getElem? (n : Nat) (v : Word) (b : Nat) (hb : b < n) :
    (unpackBits n v)[n - 1 - b]? = some (v.getLsbD b) := by
  have hlt : n - 1 - b < n := by omega
  have hback : n - 1 - (n - 1 - b) = b := by omega
  simp [unpackBits, hlt, hback]

/-- Settles O43: the data read are the packed cells of the access. -/
theorem windowReadIsBigEndian : Obligations.WindowReadIsBigEndian := by
  unfold Obligations.WindowReadIsBigEndian
  intro s w a hp hidle halign hlow hhigh
  have hw := widthBytes_le w
  have hbit := fun b => regValue_packBits_getLsbD
    (memRead s 0 (8 * (a.toNat - s.params.winBase)) (8 * widthBytes w)) b (by rw [memRead_length]; omega)
  simp only [memRead_length] at hbit
  refine ⟨_, hostAccess_read_of_window (target_window hp hidle halign hlow hhigh), fun b hb => ?_, fun b hb => ?_⟩
  · rw [hbit, if_pos hb, bitAt_memRead _ _ _ _ _ (by omega)]
  · rw [hbit, if_neg (by omega)]

/-- Settles O44: the write is a MemWrite of the unpacked data. -/
theorem windowWriteIsBigEndian : Obligations.WindowWriteIsBigEndian := by
  unfold Obligations.WindowWriteIsBigEndian
  intro s w a data hp hidle halign hlow hhigh
  have hkeeps := keepsCells_memWrite s (8 * (a.toNat - s.params.winBase)) (unpackBits (8 * widthBytes w) data)
  rw [unpackBits_length] at hkeeps
  refine ⟨_, hostAccess_write_of_window data (target_window hp hidle halign hlow hhigh), fun b hb => ?_, hkeeps⟩
  have hlt : 8 * widthBytes w - 1 - b < (unpackBits (8 * widthBytes w) data).length := by
    rw [unpackBits_length]; omega
  exact (cell_memWrite_inside s _ _ _ hlt).trans (unpackBits_getElem? _ data b hb)

/-! ## The order of steps -/

/-- A step with no turn listed, while BUSY (70_reset_and_hazards.md R332; log 8). -/
theorem step_unlisted_engine (s : State) (hs : s.sched = []) (hb : s.busy = true) :
    step s = engineTurn (beginStep s) := by
  have hturn : defaultTurn (beginStep s) = .engine := if_pos hb
  rw [step_nil s hs, hturn, takeTurn_engine]

/-- A step with no turn listed, on an idle machine whose host has an access to make (log 8). -/
theorem step_unlisted_host (s : State) (hs : s.sched = []) (hb : s.busy = false) (hp : s.port ≠ []) :
    step s = .next (hostTurn (beginStep s)) := by
  have hbegun : (beginStep s).busy = false := hb
  have hturn : defaultTurn (beginStep s) = .host := by simp [defaultTurn, hbegun, hp]
  rw [step_nil s hs, hturn, takeTurn_host]

/-- A step with no turn listed and nothing to do for engine and host (log 8, log 20). -/
theorem step_unlisted_timeBase (s : State) (hs : s.sched = []) (hb : s.busy = false) (hp : s.port = []) :
    step s = .next (timeBaseTurn (Config.freeTicks (s.draws + 1)) (beginStep s)) := by
  have hbegun : (beginStep s).busy = false := hb
  have hturn : defaultTurn (beginStep s) = .timeBase (Config.freeTicks (s.draws + 1)) := by
    simp [defaultTurn, hbegun, hp]
  rw [step_nil s hs, hturn, takeTurn_timeBase]

/-- Settles O5: the listed turn, or the default one in its three cases. -/
theorem stepTakesTheNextTurn : Obligations.StepTakesTheNextTurn := by
  unfold Obligations.StepTakesTheNextTurn
  intro s
  exact ⟨step_cons s, step_unlisted_engine s, step_unlisted_host s, step_unlisted_timeBase s⟩

/-! ## The host's turn -/

theorem hostTurn_access (s : State) (a : Access) (rest : List HostOp) (h : s.port = .access a :: rest) :
    hostTurn s = hostAccess { s with port := rest } a := by
  simp only [hostTurn, h]

theorem hostTurn_idle (s : State) (h : s.port = []) : hostTurn s = s := by
  simp only [hostTurn, h]

/-- A `wait` loop reads STATUS and goes on while DONE is 0 (30_encoding.md R107; log 17). -/
theorem hostTurn_waitDone (s : State) (rest : List HostOp) (h : s.port = .waitDone :: rest) :
    hostTurn s = { hostAccess s (.read .w32 (regAddr .status)) with
      port := if s.status.done = true then rest else s.port } := by
  rcases hostTurn_cases s with ⟨hp, -⟩ | ⟨a, rest', hp, -⟩ | ⟨rest', v, hp, rfl, ht⟩
  · simp [hp] at h
  · simp [hp] at h
  · obtain rfl : rest' = rest := by simpa [hp] using h
    rw [ht, hostRead_regAddr]
    rfl

/-- Settles O59: the listed host's turn, and the host's turn of an idle machine with no turn listed. -/
theorem hostTurnMakesTheNextAccess : Obligations.HostTurnMakesTheNextAccess := by
  unfold Obligations.HostTurnMakesTheNextAccess
  constructor
  · intro s turns hs
    have hstep : step s = .next (hostTurn { beginStep s with sched := turns }) := step_cons s .host turns hs
    rw [hstep]
    exact ⟨fun a rest hp => congrArg _ (hostTurn_access _ a rest hp),
      fun rest hp => congrArg _ (hostTurn_waitDone _ rest hp), fun hp => congrArg _ (hostTurn_idle _ hp)⟩
  · intro s hs hb
    have hstep := step_unlisted_host s hs hb
    refine ⟨fun a rest hp => ?_, fun rest hp => ?_⟩
    · exact (hstep (by simp [hp])).trans (congrArg _ (hostTurn_access _ a rest hp))
    · exact (hstep (by simp [hp])).trans (congrArg _ (hostTurn_waitDone _ rest hp))

end Sys2Proof.Machine

/-! PROOF. Command encoding (30_encoding.md R90-R95, R102): the fields of a word, the opcode map, the decoder's four
outcomes, and decode as the inverse of encode. -/

namespace Sys2Proof

/-! ## The fields of a word (R90) -/

theorem rsvField_eq_zero_iff (w : Word) : rsvField w = 0 ↔ w.toNat / 2 ^ 9 = 0 := by
  have hval : (rsvField w).toNat = w.toNat / 2 ^ 9 := by
    have hlt : w.toNat / 2 ^ 9 < 2 ^ 23 := by have := w.isLt; omega
    rw [rsvField, BitVec.extractLsb'_toNat, Nat.shiftRight_eq_div_pow, Nat.mod_eq_of_lt hlt]
  rw [← hval]
  exact BitVec.toNat_inj.symm

theorem opField_toNat (w : Word) : (opField w).toNat = w.toNat % 256 := by
  simp [opField, BitVec.extractLsb'_toNat]

/-- A word is its three fields. -/
theorem word_eq_of_fields {v w : Word} (hrsv : rsvField v = rsvField w) (hs : sField v = sField w)
    (hop : opField v = opField w) : v = w := by
  apply BitVec.eq_of_getLsbD_eq
  intro i hi
  rcases Nat.lt_trichotomy i 8 with hlt | rfl | hgt
  · simpa [opField, hlt] using congrArg (·.getLsbD i) hop
  · exact hs
  · have hbit := congrArg (·.getLsbD (i - 9)) hrsv
    simpa [rsvField, show i - 9 < 23 by omega, show 9 + (i - 9) = i by omega] using hbit

@[simp] theorem rsvField_encode (i : Instr) : rsvField (encode i) = 0 := by
  cases i with
  | noise seeded => cases seeded <;> decide
  | _ => decide

@[simp] theorem sField_encode (i : Instr) : sField (encode i) = seedBit i := by
  cases i with
  | noise seeded => cases seeded <;> decide
  | _ => decide

@[simp] theorem opField_encode (i : Instr) : opField (encode i) = opcode i := by
  cases i with
  | noise seeded => cases seeded <;> decide
  | _ => decide

theorem eq_encode_iff (w : Word) (i : Instr) :
    w = encode i ↔ rsvField w = 0 ∧ sField w = seedBit i ∧ opField w = opcode i := by
  constructor
  · rintro rfl
    exact ⟨rsvField_encode i, sField_encode i, opField_encode i⟩
  · rintro ⟨hrsv, hs, hop⟩
    exact word_eq_of_fields (by simp [hrsv]) (by simp [hs]) (by simp [hop])

/-! ## The opcode map (R91) -/

theorem ofOpcode_opcode (i : Instr) : ofOpcode (opcode i) (seedBit i) = some i := by cases i <;> rfl

theorem eq_opcode_of_ofOpcode {op : BitVec 8} {seeded : Bool} {i : Instr} (h : ofOpcode op seeded = some i) :
    op = opcode i := by
  unfold ofOpcode at h
  split at h <;> cases h <;> exact BitVec.eq_of_toNat_eq ‹_›

/-- The opcode of NOISE takes S into its command (R94). -/
theorem seedBit_of_ofOpcode_noise {seeded : Bool} {i : Instr} (h : ofOpcode 0x09 seeded = some i) :
    seedBit i = seeded := by
  cases h
  rfl

theorem ofOpcode_eq_none_iff (op : BitVec 8) (seeded : Bool) :
    ofOpcode op seeded = none ↔ ¬(1 ≤ op.toNat ∧ op.toNat ≤ 14) := by
  unfold ofOpcode
  split <;> simp_all
  omega

/-- Only NOISE carries S (R94). -/
theorem seedBit_eq_false {i : Instr} (h : opcode i ≠ 0x09) : seedBit i = false := by
  cases i with
  | noise seeded => exact absurd rfl h
  | _ => rfl

/-! ## The decoder's four outcomes (R92) -/

theorem decode_of_rsvField_ne_zero {w : Word} (hrsv : rsvField w ≠ 0) : decode w = .error .rsvBits := if_pos hrsv

/-- The opcode check comes second. -/
theorem decode_of_ofOpcode_none {w : Word} (hrsv : rsvField w = 0) (hop : ofOpcode (opField w) (sField w) = none) :
    decode w = .error .badOpcode := by
  simp [decode, hrsv, hop]

/-- The check of S comes last. -/
theorem decode_of_ofOpcode_some {w : Word} {i : Instr} (hrsv : rsvField w = 0)
    (hop : ofOpcode (opField w) (sField w) = some i) :
    decode w = if sField w && opField w != 0x09 then .error .sNotAllowed else .ok i := by
  simp [decode, hrsv, hop]

/-- A word that decodes has passed the three checks. -/
theorem checks_of_decode_ok {w : Word} {i : Instr} (h : decode w = .ok i) :
    rsvField w = 0 ∧ ofOpcode (opField w) (sField w) = some i ∧ (sField w = true → opField w = 0x09) := by
  unfold decode at h
  split at h
  · cases h
  · next hrsv =>
    split at h
    · cases h
    · next hmap =>
      split at h
      · cases h
      · next hs =>
        cases h
        exact ⟨not_not.1 hrsv, hmap,
          fun hset => by_contra fun h9 => hs (Bool.and_eq_true_iff.2 ⟨hset, bne_iff_ne.2 h9⟩)⟩

/-- A word decodes exactly to the command whose fields it has. -/
theorem decode_eq_ok_iff (w : Word) (i : Instr) :
    decode w = .ok i ↔ rsvField w = 0 ∧ sField w = seedBit i ∧ opField w = opcode i := by
  constructor
  · intro hd
    obtain ⟨hrsv, hmap, hs⟩ := checks_of_decode_ok hd
    have hop := eq_opcode_of_ofOpcode hmap
    refine ⟨hrsv, ?_, hop⟩
    by_cases h9 : opField w = 0x09
    · rw [h9] at hmap
      exact (seedBit_of_ofOpcode_noise hmap).symm
    · rw [seedBit_eq_false (hop ▸ h9)]
      exact Bool.eq_false_iff.2 (mt hs h9)
  · rintro ⟨hrsv, hs, hop⟩
    have hmap : ofOpcode (opField w) (sField w) = some i := by rw [hs, hop, ofOpcode_opcode]
    rw [decode_of_ofOpcode_some hrsv hmap, hs, hop]
    by_cases h9 : opcode i = 0x09
    · simp [h9]
    · simp [seedBit_eq_false h9]

theorem decode_eq_ok_iff_eq_encode (w : Word) (i : Instr) : decode w = .ok i ↔ w = encode i :=
  (decode_eq_ok_iff w i).trans (eq_encode_iff w i).symm

theorem decode_encode (i : Instr) : decode (encode i) = .ok i := (decode_eq_ok_iff_eq_encode _ i).2 rfl

/-- The word of a command as a table row (R93). -/
theorem decodeTableWord_encode (i : Instr) : decodeTableWord 32 (encode i).toNat = some i := by
  have hlt : (encode i).toNat < 2 ^ 32 := (encode i).isLt
  simp only [decodeTableWord, Nat.mod_eq_of_lt hlt, if_pos hlt, BitVec.ofNat_toNat, BitVec.setWidth_eq, decode_encode]

theorem wf_instr (i : Instr) : i.wf = true := by cases i <;> rfl

/-- Settles O2: both sides say that the three fields of the word are those of the command. -/
theorem decodesExactlyItsEncoding : Obligations.DecodesExactlyItsEncoding := by
  unfold Obligations.DecodesExactlyItsEncoding
  exact ⟨decode_eq_ok_iff_eq_encode, fun i => ⟨wf_instr i, decodeTableWord_encode i⟩⟩

/-! ## The legal words (R102) -/

/-- Settles O1: each word of the table is the encoding of its command. -/
theorem legalWordsDecode : Obligations.LegalWordsDecode := by
  unfold Obligations.LegalWordsDecode
  exact ⟨decode_encode .bpack, decode_encode .tpack, decode_encode .renc, decode_encode .rdec, decode_encode .henc,
    decode_encode .hdec, decode_encode .hencb, decode_encode .hdecb, decode_encode (.noise false),
    decode_encode (.noise true), decode_encode .ber, decode_encode .succ, decode_encode .tstart, decode_encode .tstop,
    decode_encode .tread⟩

/-- The word of every command is one of the 15. -/
theorem legalWord_encode : ∀ i : Instr, Laws.LegalWord.Statement i
  | .bpack => Laws.LegalWord.bpack
  | .tpack => Laws.LegalWord.tpack
  | .renc => Laws.LegalWord.renc
  | .rdec => Laws.LegalWord.rdec
  | .henc => Laws.LegalWord.henc
  | .hdec => Laws.LegalWord.hdec
  | .hencb => Laws.LegalWord.hencb
  | .hdecb => Laws.LegalWord.hdecb
  | .noise seeded => Laws.LegalWord.noise seeded
  | .ber => Laws.LegalWord.ber
  | .succ => Laws.LegalWord.succ
  | .tstart => Laws.LegalWord.tstart
  | .tstop => Laws.LegalWord.tstop
  | .tread => Laws.LegalWord.tread

theorem ofOpcode_opField_eq_none_iff (w : Word) :
    ofOpcode (opField w) (sField w) = none ↔ ¬(1 ≤ w.toNat % 256 ∧ w.toNat % 256 ≤ 14) := by
  rw [ofOpcode_eq_none_iff, opField_toNat]

/-- The check of S in arithmetic: S set, with an opcode other than that of NOISE. -/
theorem seed_not_allowed_iff (w : Word) :
    (sField w && opField w != 0x09) = true ↔ w.getLsbD 8 = true ∧ w.toNat % 256 ≠ 9 := by
  have hnoise : opField w = 0x09 ↔ w.toNat % 256 = 9 := by
    rw [← opField_toNat]
    exact BitVec.toNat_inj.symm
  rw [Bool.and_eq_true, bne_iff_ne, Ne, hnoise]
  rfl

/-- With RSV zero and an opcode of the map, the check of S decides. -/
theorem decode_of_legal_opcode (w : Word) (hrsv : w.toNat / 2 ^ 9 = 0) (h1 : 1 ≤ w.toNat % 256)
    (h14 : w.toNat % 256 ≤ 14) :
    ∃ i, decode w = if sField w && opField w != 0x09 then .error .sNotAllowed else .ok i := by
  cases hmap : ofOpcode (opField w) (sField w) with
  | none => exact absurd ⟨h1, h14⟩ ((ofOpcode_opField_eq_none_iff w).1 hmap)
  | some i => exact ⟨i, decode_of_ofOpcode_some ((rsvField_eq_zero_iff w).2 hrsv) hmap⟩

theorem decode_of_seed_allowed (w : Word) (hrsv : w.toNat / 2 ^ 9 = 0) (h1 : 1 ≤ w.toNat % 256)
    (h14 : w.toNat % 256 ≤ 14) (hs : w.getLsbD 8 = true → w.toNat % 256 = 9) : ∃ i, decode w = .ok i := by
  obtain ⟨i, hi⟩ := decode_of_legal_opcode w hrsv h1 h14
  exact ⟨i, hi.trans (if_neg fun hbad => ((seed_not_allowed_iff w).1 hbad).elim fun hset h9 => h9 (hs hset))⟩

theorem decodes_iff_legal (w : Word) : (∃ i, decode w = .ok i) ↔ (1 ≤ w.toNat ∧ w.toNat ≤ 14) ∨ w.toNat = 0x109 := by
  constructor
  · rintro ⟨i, hi⟩
    rw [(decode_eq_ok_iff_eq_encode w i).1 hi]
    exact legalWord_encode i
  · rintro (⟨h1, h14⟩ | h)
    · have hs : w.getLsbD 8 = false := Nat.testBit_lt_two_pow (by omega)
      exact decode_of_seed_allowed w (by omega) (by omega) (by omega) fun hset => absurd (hs.symm.trans hset) nofun
    · exact decode_of_seed_allowed w (by omega) (by omega) (by omega) (by omega)

/-- Settles O3: one clause per outcome of the decoder, then the words it accepts. -/
theorem decoderChecksInOrder : Obligations.DecoderChecksInOrder := by
  unfold Obligations.DecoderChecksInOrder
  intro w
  refine ⟨fun hrsv => ?_, fun hrsv hop => ?_, fun hrsv h1 h14 hs h9 => ?_, fun hrsv h1 h14 hs => ?_,
    decodes_iff_legal w⟩
  · exact decode_of_rsvField_ne_zero (mt (rsvField_eq_zero_iff w).1 hrsv)
  · exact decode_of_ofOpcode_none ((rsvField_eq_zero_iff w).2 hrsv) ((ofOpcode_opField_eq_none_iff w).2 hop)
  · obtain ⟨i, hi⟩ := decode_of_legal_opcode w hrsv h1 h14
    exact hi.trans (if_pos ((seed_not_allowed_iff w).2 ⟨hs, h9⟩))
  · obtain ⟨i, hi⟩ := decode_of_seed_allowed w hrsv h1 h14 hs
    obtain ⟨-, hseed, hop⟩ := (decode_eq_ok_iff w i).1 hi
    exact ⟨i, hi, by rw [← hop, opField_toNat], hseed.symm⟩

end Sys2Proof

/-! PROOF. The script lines `wait` and `run` (30_encoding.md R106, R107): how every command ends, and the engine and the
host taking turns in the default order (log 8). -/

namespace Sys2Proof.Machine

/-! ## Steps in a row -/

theorem coreRun_succ (M : Host.Core) {s t : M.State} (k : Nat) (h : M.step s = .next t) :
    M.run (k + 1) s = M.run k t := by
  simp only [Host.Core.run, h]

theorem run_succ {s t : State} (k : Nat) (h : step s = .next t) : run (k + 1) s = run k t :=
  coreRun_succ Sys2Proof.core k h

theorem run_one {s t : State} (h : step s = .next t) : run 1 s = .next t := run_succ 0 h

/-! ## How a command ends (40_command_engine.md R126-R128) -/

/-- `t` is `s` with its command ended, in success or in an error. -/
structure Ends (s t : State) : Prop where
  rest : KeepsRest s t
  latch_none : t.latch = none
  done : t.status.done = true

theorem ends_raiseError (s : State) (e : CmdError) : Ends s (raiseError e s) :=
  ⟨(raiseError_frame s e).rest, rfl, rfl⟩

theorem Finishes.ends {i : Instr} {s t : State} {L : Operands} (h : Finishes i s t L) : Ends s t := by
  obtain ⟨bits, r0, r1, ts, a, b, -, -, -, rfl⟩ := h
  exact ⟨⟨rfl, rfl, rfl, rfl, rfl, rfl, rfl, rfl, rfl⟩, rfl, rfl⟩

/-- A latched command always answers a next state, and has ended there. -/
theorem exec_ends (i : Instr) {s : State} {L : Latch} (hl : s.latch = some L) :
    ∃ t, exec i s = .next t ∧ Ends s t := by
  cases hb : bodyOf i s L.ops with
  | error e => exact ⟨_, exec_error i s L e hl hb, ends_raiseError s e⟩
  | ok t => exact ⟨t, exec_ok i s t L hl hb, (finishes_of_body i s t L.ops hb).ends⟩

/-- The engine's turn ends a latched command, legal or not (R125). -/
theorem engineTurn_ends {s : State} {L : Latch} (hl : s.latch = some L) :
    ∃ t, engineTurn s = .next t ∧ Ends s t := by
  cases hd : decode L.cmd with
  | error e => exact ⟨_, engineTurn_illegal s L e hl hd, ends_raiseError s _⟩
  | ok i =>
    rw [engineTurn_decoded s L i hl hd]
    exact exec_ends i hl

/-! ## The two lines in the default order -/

/-- After a command has ended, the host's next step leaves the `wait` loop with STATUS read (R107; log 17). -/
theorem step_waitDone_of_ends {s t : State} {rest : List HostOp} (h : Ends s t) (hs : s.sched = [])
    (hp : s.port = .waitDone :: rest) :
    step t = .next { t with port := rest, draws := t.draws + 1, rdata := statusWord false t.status } := by
  have hport : t.port = .waitDone :: rest := h.rest.port_eq.trans hp
  have hidle : t.busy = false := by simp [State.busy, h.latch_none]
  rw [step_unlisted_host t (h.rest.sched_eq.trans hs) hidle (by simp [hport]),
    hostTurn_waitDone (beginStep t) rest hport, hostRead_regAddr]
  simp [regRead, beginStep, State.busy, h.latch_none, h.done]

/-- Settles O57: the engine's step ends the command, and the host's next step reads DONE as 1. -/
theorem waitLoopEnds : Obligations.WaitLoopEnds := by
  unfold Obligations.WaitLoopEnds
  intro s rest hb hs hp
  obtain ⟨L, hl⟩ := Option.isSome_iff_exists.1 hb
  obtain ⟨t, ht, hend⟩ := engineTurn_ends (s := beginStep s) hl
  have hengine : step s = .next t := (step_unlisted_engine s hs hb).trans ht
  have hhost := step_waitDone_of_ends hend hs hp
  refine ⟨_, (run_succ 1 hengine).trans (run_one hhost), rfl, ?_, ?_, hend.done⟩
  · exact (statusWord_done _ _).trans hend.done
  · simp [State.busy, hend.latch_none]

theorem offerCommand_idle {s : State} (hb : s.busy = false) (w : Word) : offerCommand s w = accept s w := by
  simp [offerCommand, hb]

/-- The host's step for `cmd MN` on an idle machine accepts the word (40_command_engine.md R120). -/
theorem step_writeReg_cmd {s : State} {w : Word} {rest : List HostOp} (hb : s.busy = false) (hs : s.sched = [])
    (hp : s.port = writeReg .cmd w :: rest) :
    step s = .next (accept { beginStep s with port := rest } w) := by
  rw [step_unlisted_host s hs hb (by simp [hp]), hostTurn_access (beginStep s) _ rest hp, hostWrite_regAddr]
  exact congrArg _ (offerCommand_idle (s := { beginStep s with port := rest }) hb w)

/-- A step with a command's word latched and no turn listed runs that command. -/
theorem step_unlisted_exec {s : State} {L : Latch} {i : Instr} (hs : s.sched = []) (hl : s.latch = some L)
    (hw : L.cmd = encode i) : step s = exec i (beginStep s) := by
  rw [step_unlisted_engine s hs (by simp [State.busy, hl])]
  exact engineTurn_decoded _ L i hl (hw ▸ decode_encode i)

/-- Settles O58: the host's step accepts the word, the engine's step runs it, and the host's next step ends the loop. -/
theorem runLineRunsItsCommand : Obligations.RunLineRunsItsCommand := by
  unfold Obligations.RunLineRunsItsCommand
  intro s i rest hb hs hp
  have haccept := step_writeReg_cmd (rest := .waitDone :: rest) hb hs hp
  have hengine := step_unlisted_exec (s := accept { beginStep s with port := .waitDone :: rest } (encode i)) hs rfl rfl
  obtain ⟨t, ht, hend⟩ :=
    exec_ends i (s := { accept s (encode i) with port := .waitDone :: rest, draws := s.draws + 2 }) rfl
  have hhost := step_waitDone_of_ends hend hs rfl
  rw [hend.rest.draws_eq] at hhost
  exact ⟨t, ht, (run_succ 2 haccept).trans <| (run_succ 1 (hengine.trans ht)).trans (run_one hhost)⟩

end Sys2Proof.Machine

/-! PROOF. The command engine (40_command_engine.md): acceptance (R120), the execute step (R121, R123, R125-R128), and a
step that never stops (R130). -/

namespace Sys2Proof.Machine

/-! ## Any other operand registers (R121) -/

/-- `s` with other operand registers, as host writes to them leave it. -/
def withOps (other : Operands) (s : State) : State := { s with ops := other }

@[simp] theorem withOps_tstate (other : Operands) (s : State) : (withOps other s).tstate = s.tstate := rfl

theorem map_require (g : State → State) (ok : Bool) (e : CmdError) (rest : Except CmdError State) :
    (require ok e rest).map g = require ok e (rest.map g) := by
  cases ok <;> rfl

theorem transduce_withOps (other : Operands) (i : Instr) (s : State) (L : Operands) (f : BitSeq → Output) :
    transduce i (withOps other s) L f = (transduce i s L f).map (withOps other) := by
  simp only [transduce, apply_ite (Except.map (withOps other))]
  rfl

theorem compareRegions_withOps (other : Operands) (s : State) (L : Operands) (f : BitSeq → BitSeq → Nat) :
    compareRegions (withOps other s) L f = (compareRegions s L f).map (withOps other) := by
  simp only [compareRegions, apply_ite (Except.map (withOps other))]
  rfl

theorem require_transduce_withOps (other : Operands) (ok : Bool) (e : CmdError) (i : Instr) (s : State)
    (L : Operands) (f : BitSeq → Output) :
    require ok e (transduce i (withOps other s) L f) = (require ok e (transduce i s L f)).map (withOps other) := by
  rw [map_require, transduce_withOps]

theorem require_compareRegions_withOps (other : Operands) (ok : Bool) (e : CmdError) (s : State) (L : Operands)
    (f : BitSeq → BitSeq → Nat) :
    require ok e (compareRegions (withOps other s) L f) =
      (require ok e (compareRegions s L f)).map (withOps other) := by
  rw [map_require, compareRegions_withOps]

/-- A command's checks and body read the latched operands, never the operand registers. -/
theorem bodyOf_withOps (other : Operands) (i : Instr) (s : State) (L : Operands) :
    bodyOf i (withOps other s) L = (bodyOf i s L).map (withOps other) := by
  cases i with
  | bpack => exact show bodyBpack (withOps other s) L = _ from transduce_withOps other .bpack s L _
  | tpack => exact show bodyTpack (withOps other s) L = _ from transduce_withOps other .tpack s L _
  | hencb => exact show bodyHencb (withOps other s) L = _ from transduce_withOps other .hencb s L _
  | renc => exact require_transduce_withOps other _ _ .renc s L _
  | rdec => exact require_transduce_withOps other _ _ .rdec s L _
  | henc => exact require_transduce_withOps other _ _ .henc s L _
  | hdec => exact require_transduce_withOps other _ _ .hdec s L _
  | hdecb => exact require_transduce_withOps other _ _ .hdecb s L _
  | noise seeded => exact require_transduce_withOps other _ _ (.noise seeded) s L _
  | ber => exact require_compareRegions_withOps other _ _ s L _
  | succ => exact require_compareRegions_withOps other _ _ s L _
  | tstart => rfl
  | tstop =>
    simp only [bodyOf, bodyTstop, map_require]
    rfl
  | tread =>
    simp only [bodyOf, bodyTread, withOps_tstate]
    split <;> rfl

/-- Settles O8: the body answers the same but for the operand registers, and so does each end of the command. -/
theorem runningCommandUsesLatchedOperands : Obligations.RunningCommandUsesLatchedOperands := by
  unfold Obligations.RunningCommandUsesLatchedOperands
  intro i s t other h
  have hbody := bodyOf_withOps other i s
  obtain ⟨L, hl, hb | ⟨e, hb, rfl⟩⟩ := command_cases s t _ ((exec_eq_command i s).symm.trans h)
  · exact exec_ok i (withOps other s) (withOps other t) L hl (by rw [hbody, hb]; rfl)
  · exact exec_error i (withOps other s) L e hl (by rw [hbody, hb]; rfl)

/-! ## What a command changes, and how it ends (R125-R128) -/

/-- A command that finishes writes its output region only (R126). -/
theorem Finishes.keepsCells {i : Instr} {s t : State} {L : Operands} (h : Finishes i s t L) :
    KeepsCells s t L.dst.toNat (outLen i L) := by
  obtain ⟨bits, r0, r1, ts, a, b, hlen, -, -, rfl⟩ := h
  exact hlen ▸ keepsCells_memWrite s L.dst.toNat bits

theorem Finishes.keepsTimer {i : Instr} {s t : State} {L : Operands} (h : Finishes i s t L)
    (hi : isTimer i = false) : KeepsTimer s t := by
  obtain ⟨bits, r0, r1, ts, a, b, -, -, htimer, rfl⟩ := h
  obtain ⟨hts, ha, hb⟩ := htimer hi
  exact ⟨hts, ha, hb⟩

theorem Finishes.status_eq {i : Instr} {s t : State} {L : Operands} (h : Finishes i s t L) :
    t.status = statusCompleted s.status := by
  obtain ⟨bits, r0, r1, ts, a, b, -, -, -, rfl⟩ := h
  rfl

/-- Settles O9: an error changes no cell and no timer state, and a command that finishes its own region only. -/
theorem commandChangesOnlyItsOwnState : Obligations.CommandChangesOnlyItsOwnState := by
  unfold Obligations.CommandChangesOnlyItsOwnState
  intro i s t L hl h
  obtain ⟨L', hl', hend⟩ := exec_cases i s t h
  obtain rfl : L = L' := Option.some.inj (hl.symm.trans hl')
  rcases hend with ⟨e, rfl⟩ | hf
  · exact ⟨(raiseError_frame s e).rest, rfl, rfl, fun _ => (raiseError_frame s e).timer,
      fun _ _ => ⟨cell_raiseError .., fun _ => readBit_raiseError ..⟩⟩
  · exact ⟨hf.ends.rest, by simp [hf.status_eq], by simp [hf.status_eq], hf.keepsTimer, hf.keepsCells⟩

/-- Settles O10: a command that finishes has ERR 0, so the command has raised an error. -/
theorem failedCommandHasNoOtherEffect : Obligations.FailedCommandHasNoOtherEffect := by
  unfold Obligations.FailedCommandHasNoOtherEffect
  intro i s t h herr
  obtain ⟨L, -, ⟨e, rfl⟩ | hf⟩ := exec_cases i s t h
  · exact ⟨_, _, raiseError_failed s e, error_legal e, rfl, (raiseError_frame s e).timer,
      (raiseError_frame s e).rest⟩
  · simp [hf.status_eq] at herr

/-- A command that ends without an error leaves both codes 0 (R128). -/
theorem codes_zero_of_exec {i : Instr} {s t : State} (h : exec i s = .next t) (herr : t.status.err = false) :
    t.status.ecode = 0 ∧ t.status.ecause = 0 := by
  obtain ⟨L, -, ⟨e, rfl⟩ | hf⟩ := exec_cases i s t h
  · simp at herr
  · simp [hf.status_eq]

/-- Settles O11. -/
theorem everyLatchedCommandEnds : Obligations.EveryLatchedCommandEnds := by
  unfold Obligations.EveryLatchedCommandEnds
  intro i s L hl
  obtain ⟨t, ht, hend⟩ := exec_ends i hl
  exact ⟨t, ht, hend.latch_none, by simp [State.busy, hend.latch_none], hend.done, codes_zero_of_exec ht⟩

/-! ## The step (R123, R125, R130) -/

theorem engineTurn_idle {s : State} (hl : s.latch = none) : engineTurn s = .next s := by
  simp only [engineTurn, hl]

theorem takeTurn_answers (turn : Turn) (s : State) : ∃ t, takeTurn turn s = .next t := by
  cases turn with
  | host => exact ⟨_, takeTurn_host s⟩
  | timeBase k => exact ⟨_, takeTurn_timeBase k s⟩
  | rst => exact ⟨_, takeTurn_rst s⟩
  | engine =>
    cases hl : s.latch with
    | none => exact ⟨s, engineTurn_idle hl⟩
    | some L =>
      obtain ⟨t, ht, -⟩ := engineTurn_ends hl
      exact ⟨t, ht⟩

/-- Settles O12: a step is one turn, and every turn answers a next state. -/
theorem stepNeverStops : Obligations.StepNeverStops := by
  unfold Obligations.StepNeverStops
  intro s
  obtain ⟨turn, hstep⟩ := step_is_a_turn s
  rw [hstep]
  exact takeTurn_answers turn _

/-- A step with the engine's turn listed runs the command of the latched word. -/
theorem step_listed_exec {s : State} {L : Latch} {i : Instr} {rest : List Turn} (hs : s.sched = .engine :: rest)
    (hl : s.latch = some L) (hd : decode L.cmd = .ok i) :
    step s = exec i { beginStep s with sched := rest } := by
  rw [step_cons s .engine rest hs, takeTurn_engine]
  exact engineTurn_decoded _ L i hl hd

/-- A command's word is the word `withFetchWord` issues (log 9). -/
theorem withFetchWord_encode (s : State) (i : Instr) :
    s.withFetchWord 32 (encode i).toNat = issued s (encode i) := by
  rw [State.withFetchWord, Nat.mod_eq_of_lt (encode i).isLt, BitVec.ofNat_toNat, BitVec.setWidth_eq]

/-- Settles O6: the listed engine's turn, the default one, and the turn `withFetchWord` lists. -/
theorem stepRunsTheDecodedCommand : Obligations.StepRunsTheDecodedCommand := by
  unfold Obligations.StepRunsTheDecodedCommand
  constructor
  · intro s L i hl hd
    exact ⟨fun rest hs => step_listed_exec hs hl hd,
      fun hs => step_unlisted_exec hs hl ((decode_eq_ok_iff_eq_encode _ i).1 hd)⟩
  · intro s i
    rw [withFetchWord_encode]
    exact step_listed_exec (s := issued s (encode i)) rfl rfl (decode_encode i)

/-! ## Acceptance (R120) -/

theorem offerCommand_busy {s : State} (hb : s.busy = true) (w : Word) :
    offerCommand s w = { s with status := { s.status with ovr := true } } := by
  simp [offerCommand, hb]

/-- Settles O7: the word is offered; BUSY drops it, and an idle machine accepts it. -/
theorem cmdWriteIsAcceptedOrDropped : Obligations.CmdWriteIsAcceptedOrDropped := by
  unfold Obligations.CmdWriteIsAcceptedOrDropped
  intro s w
  have hoffer : hostAccess s (.write .w32 0x04 w) = offerCommand s w := hostWrite_regAddr s .cmd w
  rw [hoffer]
  refine ⟨fun hb => offerCommand_busy hb w, fun hb => offerCommand_idle hb w, fun hb => ?_⟩
  rw [offerCommand_idle hb, busy_accept]

end Sys2Proof.Machine

/-! PROOF. Conversion (41_conversion.md): the bits of `bits_to_bytes` and `bits_to_text` (R151), and the two commands
(R152, R153). -/

namespace Sys2Proof.Machine

/-! ## The bits of the outputs (R151) -/

theorem bitsToBytes_getElem?_data (s : BitSeq) (i : Nat) (h : i < s.length) : (bitsToBytes s)[i]? = s[i]? :=
  List.getElem?_append_left h

theorem bitsToBytes_getElem?_pad (s : BitSeq) (i : Nat) (h : s.length ≤ i) (hi : i < 8 * ceilDiv s.length 8) :
    (bitsToBytes s)[i]? = some false := by
  rw [bitsToBytes, zeros, List.getElem?_append_right h, List.getElem?_replicate, if_pos (by omega)]

theorem bitsToText_getElem? (s : BitSeq) (i : Nat) (h : i < 8 * (s.length / 8)) : (bitsToText s)[i]? = s[i]? :=
  List.getElem?_take_of_lt h

/-! ## The commands -/

/-- BPACK whose checks all pass writes `bits_to_bytes` of its input; the range check of DST bounds both results. -/
theorem exec_bpack_completes (s : State) (L : Latch) (hl : s.latch = some L) (hw : s.params.wf = true)
    (hr : RegionsOk s L.ops (8 * ceilDiv L.ops.len0.toNat 8)) :
    ∃ t, exec .bpack s = .next t ∧
      Completed s t (8 * ceilDiv L.ops.len0.toNat 8) (ceilDiv L.ops.len0.toNat 8)
        (8 * ceilDiv L.ops.len0.toNat 8 - L.ops.len0.toNat) ∧
      (∀ k, k < 8 * ceilDiv L.ops.len0.toNat 8 → t.cell (L.ops.dst.toNat + k) =
        (bitsToBytes (memRead s 0 L.ops.src0.toNat L.ops.len0.toNat))[k]?) ∧
      OnlyWrites s t L.ops.dst.toNat (8 * ceilDiv L.ops.len0.toNat 8) := by
  obtain ⟨-, hsize⟩ := input_le s L.ops _ hw hr
  exact transduce_result .bpack s L
    (fun bits => ⟨bitsToBytes bits, ceilDiv L.ops.len0.toNat 8,
      8 * ceilDiv L.ops.len0.toNat 8 - L.ops.len0.toNat⟩) _ _ hl hw rfl rfl hr rfl
    (by rw [bitsToBytes_length, memRead_length]; rfl) (by dsimp only; omega) (by dsimp only; omega)

/-- Settles O16: `bits_to_bytes` holds the input bits and then the zeros. -/
theorem bpackPadsToWholeBytes : Obligations.BpackPadsToWholeBytes := by
  unfold Obligations.BpackPadsToWholeBytes
  rintro s L n hl hw rfl hr
  obtain ⟨t, ht, hdone, hcells, hframe⟩ := exec_bpack_completes s L hl hw hr
  have hlen := memRead_length s 0 L.ops.src0.toNat L.ops.len0.toNat
  refine ⟨t, ht, hdone, fun i hi => ?_, fun i hi hlt => ?_, hframe⟩
  · have hlt := hi.trans_le (ceilDiv_mul_ge L.ops.len0.toNat 8 (by decide))
    rw [hcells i hlt, bitsToBytes_getElem?_data _ i (by rwa [hlen]), memRead_getElem? s 0 _ _ i hi, inputBit]
  · rw [hcells i hlt, bitsToBytes_getElem?_pad _ i (by rwa [hlen]) (by rwa [hlen])]

/-- TPACK whose checks all pass writes `bits_to_text` of its input. -/
theorem exec_tpack_completes (s : State) (L : Latch) (hl : s.latch = some L) (hw : s.params.wf = true)
    (hr : RegionsOk s L.ops (8 * (L.ops.len0.toNat / 8))) :
    ∃ t, exec .tpack s = .next t ∧
      Completed s t (8 * (L.ops.len0.toNat / 8)) (L.ops.len0.toNat / 8) (L.ops.len0.toNat % 8) ∧
      (∀ k, k < 8 * (L.ops.len0.toNat / 8) → t.cell (L.ops.dst.toNat + k) =
        (bitsToText (memRead s 0 L.ops.src0.toNat L.ops.len0.toNat))[k]?) ∧
      OnlyWrites s t L.ops.dst.toNat (8 * (L.ops.len0.toNat / 8)) := by
  have hword := L.ops.len0.isLt
  exact transduce_result .tpack s L
    (fun bits => ⟨bitsToText bits, L.ops.len0.toNat / 8, L.ops.len0.toNat % 8⟩) _ _ hl hw rfl rfl hr rfl
    (by rw [bitsToText_length, memRead_length]; rfl) (by dsimp only; omega) (by dsimp only; omega)

/-- Settles O17: each cell of the output holds a bit of a whole byte of the input. -/
theorem tpackDropsThePartialByte : Obligations.TpackDropsThePartialByte := by
  unfold Obligations.TpackDropsThePartialByte
  rintro s L n hl hw rfl hr
  obtain ⟨t, ht, hdone, hcells, hframe⟩ := exec_tpack_completes s L hl hw hr
  refine ⟨t, ht, hdone, fun i hi => ?_, hframe⟩
  rw [hcells i hi, bitsToText_getElem? _ i (by rwa [memRead_length]), memRead_getElem? s 0 _ _ i (by omega), inputBit]

end Sys2Proof.Machine

/-! PROOF. Repetition (42_repetition.md): the votes of a group (R171, R175), the two commands (R172, R173) and their
round trip (R174). -/

namespace Sys2Proof.Machine

/-! ## The voter (R171, R175) -/

theorem ones_le_length (g : BitSeq) : ones g ≤ g.length := List.countP_le_length

/-- The bits of a group other than 1 are those that are no ones. -/
theorem countP_ne_true (g : BitSeq) : g.countP (· != true) = g.length - ones g := by
  have hsplit := List.length_eq_countP_add_countP (l := g) (· == true)
  have hrest : g.countP (· != true) = g.countP fun b => decide ¬(b == true) = true :=
    List.countP_congr fun b _ => by cases b <;> decide
  rw [hrest, hsplit, ones, Nat.add_sub_cancel_left]

theorem countP_ne_false (g : BitSeq) : g.countP (· != false) = ones g :=
  List.countP_congr fun b _ => by cases b <;> decide

/-- The voter in terms of the ones alone: a strict majority of them. -/
theorem repVote_eq_decide (g : BitSeq) : repVote g = decide (2 * ones g > g.length) := by
  have hle := ones_le_length g
  exact decide_eq_decide.2 (by omega)

theorem repVote_eq_true_iff (g : BitSeq) : repVote g = true ↔ g.length < 2 * ones g := by
  rw [repVote_eq_decide, decide_eq_true_iff]

theorem repVote_eq_false_iff (g : BitSeq) : repVote g = false ↔ 2 * ones g ≤ g.length := by
  rw [repVote_eq_decide, decide_eq_false_iff_not, not_lt]

/-- Settles O21: the flipped copies of 0 are the ones of the group, those of 1 are its zeros. -/
theorem majorityVoteCorrects : Obligations.MajorityVoteCorrects := by
  unfold Obligations.MajorityVoteCorrects
  refine ⟨fun b g hlen hflips => ?_, fun g htie => ?_, fun g htie => ?_⟩
  · cases b with
    | false =>
      rw [countP_ne_false] at hflips
      exact (repVote_eq_false_iff g).2 (by omega)
    | true =>
      rw [countP_ne_true] at hflips
      exact (repVote_eq_true_iff g).2 (by omega)
  · rw [countP_ne_false] at htie
    exact (repVote_eq_false_iff g).2 htie.le
  · have hle := ones_le_length g
    rw [countP_ne_true] at htie
    rw [Ne, repVote_eq_true_iff]
    omega

/-! ## The factor (R103) -/

theorem repCount_eq {L : Operands} {n : Nat} (hp : L.param.toInt = (n : Int)) : repCount L = n :=
  congrArg Int.toNat hp

/-- The precondition of both commands, passed. -/
theorem require_repFactor {L : Operands} {n : Nat} (hp : L.param.toInt = (n : Int)) (hn : 1 ≤ n)
    (rest : Except CmdError State) : require (decide (1 ≤ repFactor L)) .repNNonpos rest = rest := by
  have hpos : 1 ≤ repFactor L := (Int.ofNat_le.2 hn).trans_eq hp.symm
  rw [decide_eq_true hpos, require_true]

/-! ## RENC (R172) -/

/-- RENC whose checks all pass writes `encode` of its input. -/
theorem exec_renc_completes (s : State) (L : Latch) (n : Nat) (hl : s.latch = some L) (hw : s.params.wf = true)
    (hp : L.ops.param.toInt = (n : Int)) (hn : 1 ≤ n) (hr : RegionsOk s L.ops (L.ops.len0.toNat * n)) :
    ∃ t, exec .renc s = .next t ∧ Completed s t (L.ops.len0.toNat * n) 0 L.ops.len0.toNat ∧
      (∀ k, k < L.ops.len0.toNat * n → t.cell (L.ops.dst.toNat + k) =
        (repEncode n (memRead s 0 L.ops.src0.toNat L.ops.len0.toNat))[k]?) ∧
      OnlyWrites s t L.ops.dst.toNat (L.ops.len0.toNat * n) := by
  have hbody := require_repFactor hp hn
  obtain rfl := repCount_eq hp
  exact transduce_result .renc s L
    (fun bits => ⟨repEncode (repCount L.ops) bits, 0, L.ops.len0.toNat⟩) _ _ hl hw (hbody _) rfl hr rfl
    (by rw [repEncode_length, memRead_length]; rfl) (Nat.two_pow_pos 32) L.ops.len0.isLt

/-- Settles O18: copy `k` of input bit `i` is bit `i*n + k` of `encode`. -/
theorem rencRepeatsEachBit : Obligations.RencRepeatsEachBit := by
  unfold Obligations.RencRepeatsEachBit
  intro s L n hl hw hp hn hr
  obtain ⟨t, ht, hdone, hcells, hframe⟩ := exec_renc_completes s L n hl hw hp hn hr
  refine ⟨t, ht, hdone, fun i k hi hk => ?_, hframe⟩
  have hcell : i * n + k < L.ops.len0.toNat * n := by
    calc i * n + k < (i + 1) * n := by rw [Nat.succ_mul]; omega
      _ ≤ L.ops.len0.toNat * n := Nat.mul_le_mul_right n hi
  have hlen : i < (memRead s 0 L.ops.src0.toNat L.ops.len0.toNat).length := by rwa [memRead_length]
  rw [hcells _ hcell, repEncode_getElem? n _ i k hk hlen, memRead_getElem, inputBit]

/-! ## RDEC (R173) -/

/-- The groups `decode` votes on are those of R173. -/
theorem repGroups_memRead (s : State) (L : Operands) (n : Nat) :
    repGroups n (memRead s 0 L.src0.toNat L.len0.toNat) =
      (List.range (ceilDiv L.len0.toNat n)).map (inputGroup s L n) := by
  rw [repGroups, memRead_length, groups]
  exact List.map_congr_left fun j _ => group_memRead n s 0 _ _ j

theorem repDecode_memRead_getElem? (s : State) (L : Operands) (n j : Nat) (hj : j < ceilDiv L.len0.toNat n) :
    (repDecode n (memRead s 0 L.src0.toNat L.len0.toNat))[j]? = some (repVote (inputGroup s L n j)) := by
  rw [repDecode, repGroups_memRead, List.getElem?_map, List.getElem?_map, List.getElem?_range hj]
  rfl

theorem countP_repGroups_memRead (s : State) (L : Operands) (n : Nat) (p : BitSeq → Bool) :
    (repGroups n (memRead s 0 L.src0.toNat L.len0.toNat)).countP p =
      countBelow (ceilDiv L.len0.toNat n) fun j => p (inputGroup s L n j) := by
  rw [repGroups_memRead, countP_map_range]

/-- RDEC whose checks all pass writes the vote of each group and counts those that are not unanimous. -/
theorem exec_rdec_completes (s : State) (L : Latch) (n : Nat) (hl : s.latch = some L) (hw : s.params.wf = true)
    (hp : L.ops.param.toInt = (n : Int)) (hn : 1 ≤ n) (hr : RegionsOk s L.ops (ceilDiv L.ops.len0.toNat n)) :
    ∃ t, exec .rdec s = .next t ∧
      Completed s t (ceilDiv L.ops.len0.toNat n)
        (countBelow (ceilDiv L.ops.len0.toNat n) fun j => notUnanimous (inputGroup s L.ops n j))
        (ceilDiv L.ops.len0.toNat n) ∧
      (∀ j, j < ceilDiv L.ops.len0.toNat n →
        t.cell (L.ops.dst.toNat + j) = some (repVote (inputGroup s L.ops n j))) ∧
      OnlyWrites s t L.ops.dst.toNat (ceilDiv L.ops.len0.toNat n) := by
  obtain ⟨-, hsize⟩ := input_le s L.ops _ hw hr
  have hcount := countBelow_le (ceilDiv L.ops.len0.toNat n) fun j => notUnanimous (inputGroup s L.ops n j)
  have hbody := require_repFactor hp hn
  obtain rfl := repCount_eq hp
  have hres := countP_repGroups_memRead s L.ops (repCount L.ops) notUnanimous
  obtain ⟨t, ht, hdone, hcells, hframe⟩ := transduce_result .rdec s L
    (fun bits => ⟨repDecode (repCount L.ops) bits, (repGroups (repCount L.ops) bits).countP notUnanimous,
      ceilDiv L.ops.len0.toNat (repCount L.ops)⟩) _ _ hl hw (hbody _) rfl hr (congrArg (Output.mk _ · _) hres)
    (by rw [repDecode_length, memRead_length]; rfl) (by dsimp only; omega) (by dsimp only; omega)
  exact ⟨t, ht, hdone, fun j hj => (hcells j hj).trans (repDecode_memRead_getElem? s L.ops _ j hj), hframe⟩

/-- Settles O19: a vote is a strict majority of the ones. -/
theorem rdecVotesPerGroup : Obligations.RdecVotesPerGroup := by
  unfold Obligations.RdecVotesPerGroup
  intro s L n hl hw hp hn hr
  obtain ⟨t, ht, hdone, hcells, hframe⟩ := exec_rdec_completes s L n hl hw hp hn hr
  exact ⟨t, ht, hdone, fun j hj => (hcells j hj).trans (congrArg some (repVote_eq_decide _)), hframe⟩

/-! ## The round trip (R174) -/

/-- Copies of a bit vote for it. -/
theorem repVote_replicate (b : Bit) (n : Nat) (hn : 1 ≤ n) : repVote (List.replicate n b) = b :=
  majorityVoteCorrects.1 b _ (by simpa using hn) (by simp [List.countP_replicate])

/-- Copies of a bit are unanimous. -/
theorem notUnanimous_replicate (b : Bit) (n : Nat) : notUnanimous (List.replicate n b) = false := by
  cases b <;> simp [notUnanimous, ones, List.countP_replicate]

theorem ceilDiv_mul_right (m n : Nat) (hn : 1 ≤ n) : ceilDiv (m * n) n = m := by
  rw [ceilDiv, Nat.add_sub_assoc hn, Nat.mul_comm, Nat.mul_add_div hn, Nat.div_eq_of_lt (by omega), Nat.add_zero]

/-- A read of cells that all hold one bit. -/
theorem memRead_eq_replicate (s : State) (k a n : Nat) (b : Bit) (h : ∀ i, i < n → s.cell (a + i) = some b) :
    memRead s k a n = List.replicate n b := by
  refine List.eq_replicate_iff.2 ⟨memRead_length .., fun c hc => ?_⟩
  obtain ⟨i, hi, rfl⟩ := List.mem_map.1 hc
  exact readBit_of_written s k _ b (h i (List.mem_range.1 hi))

/-- A whole group of an input of `m` groups, `b` in each of its cells, is the copies of `b`. -/
theorem inputGroup_eq_replicate (s : State) (L : Operands) (n m j : Nat) (b : Bit) (hlen : L.len0.toNat = m * n)
    (hj : j < m) (h : ∀ k, k < n → s.cell (L.src0.toNat + (j * n + k)) = some b) :
    inputGroup s L n j = List.replicate n b := by
  have hwhole : min n (L.len0.toNat - j * n) = n := by
    have hle : (j + 1) * n ≤ m * n := Nat.mul_le_mul_right n hj
    rw [Nat.succ_mul] at hle
    omega
  rw [inputGroup, hwhole]
  exact memRead_eq_replicate s 0 _ n b fun k hk => by rw [Nat.add_assoc]; exact h k hk

theorem countBelow_eq_zero (n : Nat) (p : Nat → Bool) (h : ∀ i, i < n → p i = false) : countBelow n p = 0 := by
  rw [countBelow, List.length_eq_zero_iff, List.filter_eq_nil_iff]
  intro i hi
  simp [h i (List.mem_range.1 hi)]

/-- Settles O20: each group RDEC reads is the copies RENC wrote of one input bit. -/
theorem repetitionRoundTrip : Obligations.RepetitionRoundTrip := by
  unfold Obligations.RepetitionRoundTrip
  intro s t u L M n hl hw hp hn hr ht hparams hbm hlu hparam hsrc hlen hru
  obtain ⟨t', ht', -, hcopies, -⟩ := rencRepeatsEachBit s L n hl hw hp hn hr
  obtain rfl : t' = t := Host.Outcome.next.inj (ht'.symm.trans ht)
  have hgroup : ∀ i, i < L.ops.len0.toNat → inputGroup u M.ops n i = List.replicate n (inputBit s L.ops i) := by
    intro i hi
    refine inputGroup_eq_replicate u M.ops n _ i _ hlen hi fun k hk => ?_
    rw [State.cell, hbm, hsrc]
    exact hcopies i k hi hk
  have hcount : ceilDiv M.ops.len0.toNat n = L.ops.len0.toNat := by rw [hlen, ceilDiv_mul_right _ n hn]
  obtain ⟨v, hv, hdone, hvotes, -⟩ := exec_rdec_completes u M n hlu (by rwa [hparams]) (by rwa [hparam]) hn
    (by rwa [hcount])
  rw [hcount] at hdone hvotes
  have hunanimous := countBelow_eq_zero L.ops.len0.toNat (fun j => notUnanimous (inputGroup u M.ops n j))
    fun i hi => by rw [hgroup i hi, notUnanimous_replicate]
  rw [hunanimous] at hdone
  refine ⟨v, hv, hdone, fun i hi => ?_⟩
  rw [hvotes i hi, hgroup i hi, repVote_replicate _ n hn]

end Sys2Proof.Machine

/-! PROOF. Hamming(7,4) (43_hamming.md): the units (R192, R193) and the linearity of the syndrome (R198, R199), the
blocks of a sequence (R196, R197, R201), the four commands (R194-R197) and their round trips (R200). -/

namespace Sys2Proof.Machine

/-! ## The units (R192, R193, R198) -/

theorem hamEnc4_eq_codeword (d : BitSeq) :
    hamEnc4 d = codeword (bitAt d 0) (bitAt d 1) (bitAt d 2) (bitAt d 3) := rfl

theorem codeword_getElem? (d1 d2 d3 d4 : Bit) (i : Nat) (h : i < 7) :
    (codeword d1 d2 d3 d4)[i]? = some (bitAt (codeword d1 d2 d3 d4) i) := by
  have hlen : i < (codeword d1 d2 d3 d4).length := h
  rw [bitAt, List.getD_eq_getElem _ _ hlen, List.getElem?_eq_getElem hlen]

/-- The syndrome is linear, since each of its three bits is a parity. -/
theorem syndromeOf_xor (c e : Nat → Bit) : syndromeOf (fun i => c i ^^ e i) = syndromeOf c ^^^ syndromeOf e := by
  have parity : ∀ a b c d a' b' c' d' : Bit, ((a ^^ a') ^^ (b ^^ b') ^^ (c ^^ c') ^^ (d ^^ d')) =
      ((a ^^ b ^^ c ^^ d) ^^ (a' ^^ b' ^^ c' ^^ d')) := by decide
  have value : ∀ x y z x' y' z' : Bit, 4 * bitVal (z ^^ z') + 2 * bitVal (y ^^ y') + bitVal (x ^^ x') =
      (4 * bitVal z + 2 * bitVal y + bitVal x) ^^^ (4 * bitVal z' + 2 * bitVal y' + bitVal x') := by decide
  simp only [syndromeOf, parity, value]

theorem syndromeOf_codeword (d1 d2 d3 d4 : Bit) : syndromeOf (bitAt (codeword d1 d2 d3 d4)) = 0 := by
  revert d1 d2 d3 d4
  decide

/-- Over a codeword, the syndrome sees the errors alone. -/
theorem syndromeOf_codeword_xor (d1 d2 d3 d4 : Bit) (e : Nat → Bit) :
    syndromeOf (fun i => bitAt (codeword d1 d2 d3 d4) i ^^ e i) = syndromeOf e := by
  rw [syndromeOf_xor, syndromeOf_codeword, Nat.zero_xor]

/-- Column `i` of the parity checks is the number `i + 1`, so the syndrome of errors adds up their positions. -/
theorem syndromeOf_eq_xor_positions (e : BitSeq) (h : e.length = 7) :
    syndromeOf (bitAt e) = ((List.range 7).filter fun i => bitAt e i).foldl (fun acc i => acc ^^^ (i + 1)) 0 := by
  have key : ∀ e0 e1 e2 e3 e4 e5 e6 : Bit, syndromeOf (bitAt [e0, e1, e2, e3, e4, e5, e6]) =
      ((List.range 7).filter fun i => bitAt [e0, e1, e2, e3, e4, e5, e6] i).foldl
        (fun acc i => acc ^^^ (i + 1)) 0 := by decide
  match e, h with
  | [e0, e1, e2, e3, e4, e5, e6], _ => exact key e0 e1 e2 e3 e4 e5 e6

theorem bitAt_zipWith_xor (a b : BitSeq) (h : a.length = b.length) (i : Nat) :
    bitAt (List.zipWith (· ^^ ·) a b) i = (bitAt a i ^^ bitAt b i) := by
  by_cases hi : i < a.length
  · simp [bitAt, hi, h ▸ hi]
  · simp [bitAt, hi, h ▸ hi]

/-- Settles O27: the syndrome is linear and 0 on the codeword, so it is the syndrome of the errors. -/
theorem syndromeIsXorOfErrorPositions : Obligations.SyndromeIsXorOfErrorPositions := by
  unfold Obligations.SyndromeIsXorOfErrorPositions
  intro d e _ he
  have hbits := bitAt_zipWith_xor (hamEnc4 d) e (by rw [hamEnc4_length, he])
  rw [syndrome_eq, funext hbits, hamEnc4_eq_codeword, syndromeOf_codeword_xor, syndromeOf_eq_xor_positions e he]

/-- No error (`e = 0`) or one at 1-based position `e` has the syndrome `e`. -/
theorem syndromeOf_single_error (e : Nat) (he : e ≤ 7) : syndromeOf (fun i => decide (i + 1 = e)) = e := by
  interval_cases e <;> decide

/-- The decoder unit undoes the flip it finds: its correction meets exactly the flipped bit. -/
theorem decodedOf_codeword_flip (d1 d2 d3 d4 : Bit) (e : Nat) (he : e ≤ 7) :
    decodedOf (fun i => bitAt (codeword d1 d2 d3 d4) i ^^ decide (i + 1 = e)) = [d1, d2, d3, d4] := by
  have hsyndrome := (syndromeOf_codeword_xor d1 d2 d3 d4 fun i => decide (i + 1 = e)).trans
    (syndromeOf_single_error e he)
  have hcancel : ∀ (b : Bit) (k : Nat), ((b ^^ decide (k = e)) ^^ decide (e = k)) = b := by simp [eq_comm]
  simp only [decodedOf, hsyndrome, Nat.reduceAdd, hcancel]
  rfl

theorem decodedOf_codeword (d1 d2 d3 d4 : Bit) : decodedOf (bitAt (codeword d1 d2 d3 d4)) = [d1, d2, d3, d4] := by
  simpa using decodedOf_codeword_flip d1 d2 d3 d4 0 (by decide)

/-- Bit `k` of the four data bits of a block. -/
theorem four_getElem? (f : Nat → Bit) (k : Nat) (h : k < 4) : [f 0, f 1, f 2, f 3][k]? = some (f k) := by
  interval_cases k <;> rfl

/-! ## Bits of the input -/

theorem bitAt_congr {a b : BitSeq} {i : Nat} (h : a[i]? = b[i]?) : bitAt a i = bitAt b i := by
  simp only [bitAt, List.getD_eq_getElem?_getD, h]

theorem bitAt_append_zeros (s : BitSeq) (m i : Nat) : bitAt (s ++ zeros m) i = bitAt s i := by
  simp only [bitAt, zeros, List.getD_eq_getElem?_getD, List.getElem?_append, List.getElem?_replicate]
  split_ifs with h
  · rfl
  · simp [List.getElem?_eq_none (not_lt.1 h)]
  · simp [List.getElem?_eq_none (not_lt.1 h)]

theorem bitAt_block (s : BitSeq) (n j k : Nat) (h : k < n) :
    bitAt ((s.drop (j * n)).take n) k = bitAt s (n * j + k) := by
  rw [bitAt, bitAt, List.getD_eq_getElem?_getD, List.getElem?_take_of_lt h, List.getElem?_drop,
    List.getD_eq_getElem?_getD, Nat.mul_comm]

theorem bitAt_input_of_lt (s : State) (L : Operands) (i : Nat) (h : i < L.len0.toNat) :
    bitAt (memRead s 0 L.src0.toNat L.len0.toNat) i = inputBit s L i := bitAt_memRead s 0 _ _ i h

/-- `bitAt` of the input pads it with zeros. -/
theorem bitAt_input (s : State) (L : Operands) (i : Nat) :
    bitAt (memRead s 0 L.src0.toNat L.len0.toNat) i = paddedBit s L i := by
  unfold paddedBit
  split_ifs with h
  · exact bitAt_input_of_lt s L i h
  · simp [bitAt, h]

/-! ## HENC and HDEC (R194, R195) -/

/-- Settles O22. -/
theorem hencWritesTheCodeword : Obligations.HencWritesTheCodeword := by
  unfold Obligations.HencWritesTheCodeword
  intro s L hl hw hlen hr
  have hbody : bodyOf .henc s L.ops = transduce .henc s L.ops fun bits => ⟨hamEnc4 bits, 0, 1⟩ := by
    simp only [bodyOf, bodyHenc, len0Of, hlen, decide_true, require_true]
  have hword : hamEnc4 (memRead s 0 L.ops.src0.toNat L.ops.len0.toNat) =
      codeword (inputBit s L.ops 0) (inputBit s L.ops 1) (inputBit s L.ops 2) (inputBit s L.ops 3) := by
    rw [hamEnc4_eq_codeword, bitAt_input_of_lt s _ 0 (by omega), bitAt_input_of_lt s _ 1 (by omega),
      bitAt_input_of_lt s _ 2 (by omega), bitAt_input_of_lt s _ 3 (by omega)]
  exact transduce_result .henc s L _ 7 _ hl hw hbody rfl hr (congrArg (Output.mk · 0 1) hword) rfl
    (Nat.two_pow_pos 32) (by dsimp only; omega)

/-- Settles O23. -/
theorem hdecCorrectsAtTheSyndrome : Obligations.HdecCorrectsAtTheSyndrome := by
  unfold Obligations.HdecCorrectsAtTheSyndrome
  intro s L hl hw hlen hr
  have hbody : bodyOf .hdec s L.ops = transduce .hdec s L.ops fun bits => ⟨hamDec7 bits, syndrome bits, 1⟩ := by
    simp only [bodyOf, bodyHdec, len0Of, hlen, decide_true, require_true]
  have hbits : ∀ i, i < 7 → bitAt (memRead s 0 L.ops.src0.toNat L.ops.len0.toNat) i = inputBit s L.ops i :=
    fun i hi => bitAt_input_of_lt s L.ops i (by rwa [hlen])
  have hdata := (hamDec7_eq (memRead s 0 L.ops.src0.toNat L.ops.len0.toNat) (by rw [memRead_length, hlen])).trans
    (decodedOf_congr _ _ hbits)
  have hsyndrome := (syndrome_eq (memRead s 0 L.ops.src0.toNat L.ops.len0.toNat)).trans (syndromeOf_congr _ _ hbits)
  have hlt := syndromeOf_lt (inputBit s L.ops)
  exact transduce_result .hdec s L _ 4 _ hl hw hbody rfl hr (congrArg₂ (Output.mk · · 1) hdata hsyndrome) rfl
    (by dsimp only; omega) (by dsimp only; omega)

/-- Settles O26: HDEC reads the codeword with at most one bit flipped. -/
theorem hammingCorrectsOneError : Obligations.HammingCorrectsOneError := by
  unfold Obligations.HammingCorrectsOneError
  intro s t u L M e hl hw hlen hr ht he hparams hlu hsrc hlenu hru hflip
  obtain ⟨t', ht', -, hword, -⟩ := hencWritesTheCodeword s L hl hw hlen hr
  obtain rfl : t' = t := Host.Outcome.next.inj (ht'.symm.trans ht)
  have hbits : ∀ i, i < 7 → inputBit u M.ops i = (bitAt (codeword (inputBit s L.ops 0) (inputBit s L.ops 1)
      (inputBit s L.ops 2) (inputBit s L.ops 3)) i ^^ decide (i + 1 = e)) := by
    intro i hi
    refine readBit_of_written u 0 _ _ ?_
    rw [hsrc, hflip i hi, hword i hi, codeword_getElem? _ _ _ _ i hi]
    rfl
  obtain ⟨v, hv, hdone, hdata, -⟩ := hdecCorrectsAtTheSyndrome u M hlu (by rwa [hparams]) hlenu hru
  rw [syndromeOf_congr _ _ hbits, syndromeOf_codeword_xor, syndromeOf_single_error e he] at hdone
  rw [decodedOf_congr _ _ hbits, decodedOf_codeword_flip _ _ _ _ e he] at hdata
  refine ⟨v, hv, hdone, fun i hi => ?_⟩
  exact (hdata i hi).trans (four_getElem? (inputBit s L.ops) i hi)

/-! ## The blocks of a sequence (R196, R197, R201) -/

/-- Codeword `j` of `encode_bits`; `bitAt` is 0 past the end, as the padding is. -/
theorem hamEncodeBits_getElem? (s : BitSeq) (j i : Nat) (hj : j < ceilDiv s.length 4) (hi : i < 7) :
    (hamEncodeBits s)[7 * j + i]? = (codeword (bitAt s (4 * j)) (bitAt s (4 * j + 1)) (bitAt s (4 * j + 2))
      (bitAt s (4 * j + 3)))[i]? := by
  rw [hamEncodeBits, flatMap_getElem? _ _ 7 j i hamEnc4_length hi (by rwa [groups_length]), groups_getElem,
    hamEnc4_eq_codeword]
  simp only [bitAt_block _ 4 j _ (by decide : 0 < 4), bitAt_block _ 4 j _ (by decide : 1 < 4),
    bitAt_block _ 4 j _ (by decide : 2 < 4), bitAt_block _ 4 j _ (by decide : 3 < 4), bitAt_append_zeros,
    Nat.add_zero]

theorem block_length (e : BitSeq) (j : Nat) (hj : j < e.length / 7) : ((e.drop (j * 7)).take 7).length = 7 := by
  rw [List.length_take, List.length_drop]
  omega

/-- The data bits of block `j` of `decode_bits`. -/
theorem hamDecodeBits_getElem? (e : BitSeq) (j i : Nat) (hj : j < e.length / 7) (hi : i < 4) :
    (hamDecodeBits e)[4 * j + i]? = (decodedOf fun k => bitAt e (7 * j + k))[i]? := by
  rw [hamDecodeBits, hamBlocks, flatMap_getElem? _ _ 4 j i hamDec7_length hi (by rwa [groups_length]),
    groups_getElem, hamDec7_eq _ (block_length e j hj), decodedOf_congr _ _ fun k hk => bitAt_block e 7 j k hk]

/-- The blocks whose syndrome is not 0. -/
theorem countP_hamBlocks (e : BitSeq) : ((hamBlocks e).countP fun c => syndrome c != 0) =
    countBelow (e.length / 7) fun j => syndromeOf (fun k => bitAt e (7 * j + k)) != 0 := by
  rw [hamBlocks, groups, countP_map_range]
  refine countBelow_congr _ _ _ fun j _ => ?_
  rw [syndrome_eq, syndromeOf_congr _ _ fun k hk => bitAt_block e 7 j k hk]

/-- Two sequences of `B` blocks of `n` bits agree at `k` if their blocks `k / n` do. -/
theorem getElem?_eq_of_block {x y : BitSeq} {n B k : Nat} (hx : x.length = n * B)
    (hy : y.length = n * B) (h : k / n < B → x[n * (k / n) + k % n]? = y[n * (k / n) + k % n]?) : x[k]? = y[k]? := by
  by_cases hk : k / n < B
  · simpa only [Nat.div_add_mod] using h hk
  · have hle : n * B ≤ k := (Nat.mul_le_mul_left n (not_lt.1 hk)).trans (Nat.mul_div_le k n)
    rw [List.getElem?_eq_none (hx ▸ hle), List.getElem?_eq_none (hy ▸ hle)]

/-- Settles O29: the output bits of a block read the bits of that block alone. -/
theorem hammingBlocksAreIndependent : Obligations.HammingBlocksAreIndependent := by
  unfold Obligations.HammingBlocksAreIndependent
  refine ⟨fun a b j hlen hsame k hk => ?_, fun a b j hlen hsame k hk => ?_⟩
  · refine getElem?_eq_of_block (hamDecodeBits_length a) (by rw [hamDecodeBits_length, hlen])
      fun hblock => ?_
    have hbits : ∀ m, m < 7 → bitAt a (7 * (k / 4) + m) = bitAt b (7 * (k / 4) + m) :=
      fun m hm => bitAt_congr (hsame _ (by omega))
    rw [hamDecodeBits_getElem? a _ _ hblock (Nat.mod_lt k (by decide)),
      hamDecodeBits_getElem? b _ _ (hlen ▸ hblock) (Nat.mod_lt k (by decide)), decodedOf_congr _ _ hbits]
  · refine getElem?_eq_of_block (hamEncodeBits_length a) (by rw [hamEncodeBits_length, hlen])
      fun hblock => ?_
    have hbits : ∀ m, m < 4 → bitAt a (4 * (k / 7) + m) = bitAt b (4 * (k / 7) + m) :=
      fun m hm => bitAt_congr (hsame _ (by omega))
    rw [hamEncodeBits_getElem? a _ _ hblock (Nat.mod_lt k (by decide)),
      hamEncodeBits_getElem? b _ _ (hlen ▸ hblock) (Nat.mod_lt k (by decide)), hbits 1 (by decide),
      hbits 2 (by decide), hbits 3 (by decide), show bitAt a (4 * (k / 7)) = _ from hbits 0 (by decide), Nat.add_zero]

/-! ## HENCB and HDECB (R196, R197) -/

/-- A region that holds a sequence holds its blocks of `n` bits. -/
theorem stores_block {t : State} {a n B j : Nat} {bits block : BitSeq}
    (hcells : ∀ k, k < n * B → t.cell (a + k) = bits[k]?) (hj : j < B) (hlen : block.length = n)
    (hblock : ∀ i, i < n → bits[n * j + i]? = block[i]?) : Stores t (a + n * j) block := by
  intro i hi
  rw [hlen] at hi
  have hlt : n * j + i < n * B := by
    calc n * j + i < n * (j + 1) := by rw [Nat.mul_succ]; omega
      _ ≤ n * B := Nat.mul_le_mul_left n hj
  rw [Nat.add_assoc, hcells _ hlt, hblock i hi]

/-- Settles O24: each codeword is that of four bits of the padded input. -/
theorem hencbEncodesEachBlock : Obligations.HencbEncodesEachBlock := by
  unfold Obligations.HencbEncodesEachBlock
  rintro s L B hl hw rfl hr
  obtain ⟨-, hsize⟩ := input_le s L.ops _ hw hr
  obtain ⟨t, ht, hdone, hcells, hframe⟩ := transduce_result .hencb s L
    (fun bits => ⟨hamEncodeBits bits, 4 * ceilDiv L.ops.len0.toNat 4 - L.ops.len0.toNat,
      ceilDiv L.ops.len0.toNat 4⟩) _ _ hl hw rfl rfl hr rfl
    (by rw [hamEncodeBits_length, memRead_length]; rfl) (by dsimp only; omega) (by dsimp only; omega)
  refine ⟨t, ht, hdone, fun j hj => stores_block hcells hj rfl fun i hi => ?_, hframe⟩
  simp only [← bitAt_input]
  exact hamEncodeBits_getElem? _ j i (by rwa [memRead_length]) hi

theorem hamBlocks_count_input {s : State} {L : Operands} {B : Nat} (hlen : L.len0.toNat = 7 * B) :
    (memRead s 0 L.src0.toNat L.len0.toNat).length / 7 = B := by
  rw [memRead_length, hlen, Nat.mul_div_cancel_left B (by decide)]

theorem bitAt_input_block {s : State} {L : Operands} {B j : Nat} (hlen : L.len0.toNat = 7 * B) (hj : j < B) :
    ∀ k, k < 7 → bitAt (memRead s 0 L.src0.toNat L.len0.toNat) (7 * j + k) = inputBit s L (7 * j + k) :=
  fun k hk => bitAt_input_of_lt s L _ (by omega)

theorem countP_hamBlocks_input {s : State} {L : Operands} {B : Nat} (hlen : L.len0.toNat = 7 * B) :
    ((hamBlocks (memRead s 0 L.src0.toNat L.len0.toNat)).countP fun c => syndrome c != 0) =
      countBelow B fun j => syndromeOf (fun k => inputBit s L (7 * j + k)) != 0 := by
  rw [countP_hamBlocks, hamBlocks_count_input hlen]
  exact countBelow_congr _ _ _ fun j hj => by rw [syndromeOf_congr _ _ (bitAt_input_block hlen hj)]

theorem hamDecodeBits_input_getElem? {s : State} {L : Operands} {B : Nat} (hlen : L.len0.toNat = 7 * B) (j i : Nat)
    (hj : j < B) (hi : i < 4) : (hamDecodeBits (memRead s 0 L.src0.toNat L.len0.toNat))[4 * j + i]? =
      (decodedOf fun k => inputBit s L (7 * j + k))[i]? := by
  rw [hamDecodeBits_getElem? _ j i (by rwa [hamBlocks_count_input hlen]) hi,
    decodedOf_congr _ _ (bitAt_input_block hlen hj)]

/-- Settles O25: each block decodes as HDEC's input does. -/
theorem hdecbDecodesEachBlock : Obligations.HdecbDecodesEachBlock := by
  unfold Obligations.HdecbDecodesEachBlock
  intro s L B hl hw hlen hr
  obtain ⟨-, hsize⟩ := input_le s L.ops _ hw hr
  have hle := countBelow_le B fun j => syndromeOf (fun k => inputBit s L.ops (7 * j + k)) != 0
  have hblocks : len0Of L.ops / 7 = B := by rw [len0Of, uint32, hlen, Nat.mul_div_cancel_left B (by decide)]
  have hbody : bodyOf .hdecb s L.ops = transduce .hdecb s L.ops fun bits =>
      ⟨hamDecodeBits bits, (hamBlocks bits).countP fun c => syndrome c != 0, B⟩ := by
    have hwhole : len0Of L.ops % 7 = 0 := by rw [len0Of, uint32, hlen, Nat.mul_mod_right]
    simp only [bodyOf, bodyHdecb, hwhole, hblocks, decide_true, require_true]
  obtain ⟨t, ht, hdone, hcells, hframe⟩ := transduce_result .hdecb s L _ (4 * B) _ hl hw hbody
    (congrArg (4 * ·) hblocks) hr (congrArg (Output.mk _ · B) (countP_hamBlocks_input hlen))
    ((hamDecodeBits_length _).trans (congrArg (4 * ·) (hamBlocks_count_input hlen)))
    (by dsimp only; omega) (by dsimp only; omega)
  exact ⟨t, ht, hdone, fun j hj => stores_block hcells hj rfl fun i hi =>
    hamDecodeBits_input_getElem? hlen j i hj hi, hframe⟩

/-! ## The round trip of a sequence (R200) -/

/-- Settles O28: each block HDECB reads is the codeword HENCB wrote. -/
theorem hammingSequenceRoundTrip : Obligations.HammingSequenceRoundTrip := by
  unfold Obligations.HammingSequenceRoundTrip
  intro s t u L M B hl hw hB hr ht hparams hbm hlu hsrc hlenu hru
  obtain ⟨t', ht', -, hwords, -⟩ := hencbEncodesEachBlock s L B hl hw hB hr
  obtain rfl : t' = t := Host.Outcome.next.inj (ht'.symm.trans ht)
  have hbits : ∀ j, j < B → ∀ k, k < 7 → inputBit u M.ops (7 * j + k) =
      bitAt (codeword (paddedBit s L.ops (4 * j)) (paddedBit s L.ops (4 * j + 1)) (paddedBit s L.ops (4 * j + 2))
        (paddedBit s L.ops (4 * j + 3))) k := by
    intro j hj k hk
    refine readBit_of_written u 0 _ _ ?_
    rw [State.cell, hbm, hsrc, ← Nat.add_assoc, ← codeword_getElem? _ _ _ _ k hk]
    exact hwords j hj k hk
  obtain ⟨v, hv, hdone, hdata, -⟩ := hdecbDecodesEachBlock u M B hlu (by rwa [hparams]) hlenu hru
  have hclean := countBelow_eq_zero B (fun j => syndromeOf (fun k => inputBit u M.ops (7 * j + k)) != 0)
    fun j hj => by rw [syndromeOf_congr _ _ (hbits j hj), syndromeOf_codeword]; rfl
  rw [hclean] at hdone
  refine ⟨v, hv, hdone, fun i hi => ?_⟩
  have hblock := hdata (i / 4) (by omega)
  rw [decodedOf_congr _ _ (hbits (i / 4) (by omega)), decodedOf_codeword] at hblock
  have hcell := hblock (i % 4) (Nat.mod_lt i (by decide))
  rw [Nat.add_assoc, Nat.div_add_mod] at hcell
  refine hcell.trans ((four_getElem? (fun k => paddedBit s L.ops (4 * (i / 4) + k)) _ ?_).trans ?_)
  · exact Nat.mod_lt i (by decide)
  · rw [Nat.div_add_mod]

end Sys2Proof.Machine

/-! PROOF. The noisy channel (44_channel.md): the default NoiseSource (R231), the channel over an input region (R233),
and NOISE with what follows from it (R232, R234-R236). -/

namespace Sys2Proof.Machine

/-! ## The default NoiseSource (R231) -/

theorem lcgStep_toNat (x : Word) : (lcgStep x).toNat = (1664525 * x.toNat + 1013904223) % 2 ^ 32 :=
  BitVec.toNat_ofNat ..

/-- The top 31 bits of a word are its half. -/
theorem extractLsb'_one_toNat (v : Word) : (v.extractLsb' 1 31).toNat = v.toNat / 2 := by
  have hlt := v.isLt
  rw [BitVec.extractLsb'_toNat, Nat.shiftRight_one, Nat.mod_eq_of_lt (by omega)]

/-- Settles O34: the draw is the half of the new state; the first draw for seed 0 is computed. -/
theorem defaultNoiseSourceDraws : Obligations.DefaultNoiseSourceDraws := by
  unfold Obligations.DefaultNoiseSourceDraws
  refine ⟨fun x => ⟨rfl, lcgStep_toNat x, ?_⟩, by decide⟩
  rw [← lcgStep_toNat]
  exact extractLsb'_one_toNat (lcgStep x)

/-! ## Counts of positions -/

/-- The mismatches of two sequences given position by position (R234). -/
theorem mismatches_map_range (n : Nat) (f g : Nat → Bit) :
    mismatches ((List.range n).map f) ((List.range n).map g) = countBelow n fun i => f i != g i := by
  rw [mismatches, List.zip_map', List.countP_map, List.countP_eq_length_filter]
  rfl

theorem countBelow_eq_self (n : Nat) (p : Nat → Bool) (h : ∀ i, i < n → p i = true) : countBelow n p = n := by
  rw [countBelow, List.filter_eq_self.2 fun i hi => h i (List.mem_range.1 hi), List.length_range]

/-! ## The channel over an input region (R233) -/

/-- The flip unit changes a bit exactly if the draw is below `P`. -/
theorem flip_bne_self (b : Bit) (u : BitVec 31) (p : Nat) : (flip b u p != b) = decide (u.toNat < p) := by
  rw [flip]
  cases b <;> cases decide (u.toNat < p) <;> rfl

/-- The channel's output over a MemRead, position by position. -/
theorem channel_memRead (sel : Config.NoiseSel) (seed : Word) (p : Nat) (s : State) (k a n : Nat) :
    channel sel seed p (memRead s k a n) =
      (List.range n).map fun i => flip (readBit s k (a + i)) (noiseDraw sel seed i) p := by
  apply List.ext_getElem?
  intro i
  rw [channel_getElem?, memRead, List.getElem?_map, List.getElem?_map]
  by_cases hi : i < n
  · rw [List.getElem?_range hi]
    rfl
  · rw [List.getElem?_eq_none (by simpa using hi)]
    rfl

/-- RES0 of NOISE counts the draws below `P` (R234). -/
theorem mismatches_channel_memRead (sel : Config.NoiseSel) (seed : Word) (p : Nat) (s : State) (k a n : Nat) :
    mismatches (channel sel seed p (memRead s k a n)) (memRead s k a n) =
      countBelow n fun i => decide ((noiseDraw sel seed i).toNat < p) := by
  rw [channel_memRead, memRead, mismatches_map_range]
  exact countBelow_congr n _ _ fun i _ => flip_bne_self ..

/-! ## NOISE (R232, R234) -/

/-- Settles O30: the output is the channel over the input, its draws those of the selected seed. -/
theorem noiseFlipsBelowTheDraw : Obligations.NoiseFlipsBelowTheDraw := by
  unfold Obligations.NoiseFlipsBelowTheDraw
  intro s L seeded hl hw hp hr
  have hbody : bodyOf (.noise seeded) s L.ops = transduce (.noise seeded) s L.ops fun bits =>
      ⟨channel s.params.noise (noiseSeed seeded s L.ops) (probP L.ops) bits,
        mismatches (channel s.params.noise (noiseSeed seeded s L.ops) (probP L.ops) bits) bits, 0⟩ := by
    rw [bodyOf, bodyNoise, decide_eq_true (show probP L.ops ≤ 0x80000000 from hp), require_true]
  have hout : channel s.params.noise (noiseSeed seeded s L.ops) (probP L.ops)
      (memRead s 0 (src0At L.ops) (len0Of L.ops)) = (List.range L.ops.len0.toNat).map fun i =>
        inputBit s L.ops i ^^ decide ((commandDraw s L.ops seeded i).toNat < L.ops.prob.toNat) := channel_memRead ..
  have hflips := mismatches_channel_memRead s.params.noise (noiseSeed seeded s L.ops) (probP L.ops) s 0
    (src0At L.ops) (len0Of L.ops)
  obtain ⟨t, ht, hdone, hcells, hframe⟩ := transduce_result (.noise seeded) s L _ _ _ hl hw hbody rfl hr
    (congrArg₂ (Output.mk · · 0) hout hflips) (by rw [List.length_map, List.length_range]; rfl)
    ((countBelow_le _ _).trans_lt L.ops.len0.isLt) (Nat.two_pow_pos 32)
  refine ⟨t, ht, hdone, fun i hi => (hcells i hi).trans ?_, hframe⟩
  rw [List.getElem?_map, List.getElem?_range hi, Option.map_some]

/-- Unseeded NOISE has the body of seeded NOISE with the drawn seed (R232); no body reads the latch of the state. -/
theorem bodyNoise_unseeded (s : State) (L : Operands) (l : Option Latch) :
    bodyNoise false s L = bodyNoise true { s with latch := l } { L with seed := Config.entropy s.draws } := rfl

/-- Settles O31: the two commands have one body, and either end of a command clears the latch they differ in. -/
theorem unseededNoiseIsSeededByEntropy : Obligations.UnseededNoiseIsSeededByEntropy := by
  unfold Obligations.UnseededNoiseIsSeededByEntropy
  intro s L hl
  rw [exec_eq_command, exec_eq_command, command_eq s L _ hl, command_eq _ _ _ rfl, bodyOf, bodyOf,
    ← bodyNoise_unseeded]
  cases bodyNoise false s L.ops <;> rfl

/-! ## Consequences (R235, R236) -/

/-- Settles O32: no 31-bit draw is below 0, and each is below 2^31. -/
theorem noiseAtProbabilityZeroAndOne : Obligations.NoiseAtProbabilityZeroAndOne := by
  unfold Obligations.NoiseAtProbabilityZeroAndOne
  intro s L seeded hl hw hr
  refine ⟨fun hp => ?_, fun hp => ?_⟩
  · obtain ⟨t, ht, hdone, hcells, -⟩ := noiseFlipsBelowTheDraw s L seeded hl hw (by omega) hr
    have hdraw : ∀ i, decide ((commandDraw s L.ops seeded i).toNat < L.ops.prob.toNat) = false := fun i =>
      decide_eq_false (by omega)
    rw [countBelow_eq_zero _ _ fun i _ => hdraw i] at hdone
    refine ⟨t, ht, hdone, fun i hi => ?_⟩
    rw [hcells i hi, hdraw, Bool.xor_false]
  · obtain ⟨t, ht, hdone, hcells, -⟩ := noiseFlipsBelowTheDraw s L seeded hl hw hp.le hr
    have hdraw : ∀ i, decide ((commandDraw s L.ops seeded i).toNat < L.ops.prob.toNat) = true := fun i =>
      decide_eq_true (hp ▸ (commandDraw s L.ops seeded i).isLt)
    rw [countBelow_eq_self _ _ fun i _ => hdraw i] at hdone
    refine ⟨t, ht, hdone, fun i hi => ?_⟩
    rw [hcells i hi, hdraw, Bool.xor_true]

/-- The draws of a seeded NOISE depend on the NoiseSource and on SEED alone. -/
theorem commandDraw_seeded_congr {s u : State} {L M : Operands} (hsrc : s.params.noise = u.params.noise)
    (hseed : L.seed = M.seed) : commandDraw s L true = commandDraw u M true := by
  funext i
  rw [commandDraw, commandDraw, hsrc, if_pos rfl, if_pos rfl, hseed]

/-- Settles O33: both commands flip the same positions. -/
theorem seededNoiseIsReproducible : Obligations.SeededNoiseIsReproducible := by
  unfold Obligations.SeededNoiseIsReproducible
  intro s u L M hls hlu hws hwu hsrc hprob hseed hlen hp hrs hru hinput
  obtain ⟨t, ht, htdone, htcells, -⟩ := noiseFlipsBelowTheDraw s L true hls hws hp hrs
  obtain ⟨v, hv, hvdone, hvcells, -⟩ := noiseFlipsBelowTheDraw u M true hlu hwu (hprob ▸ hp) hru
  rw [← commandDraw_seeded_congr hsrc hseed, ← hprob, ← hlen] at hvdone hvcells
  refine ⟨t, v, ht, hv, BitVec.eq_of_toNat_eq (htdone.res0_eq.trans hvdone.res0_eq.symm), fun i hi => ?_⟩
  rw [htcells i hi, hvcells i hi, hinput i hi]

end Sys2Proof.Machine

/-! PROOF. The metrics BER and SUCC (45_metrics.md R250-R255) and the timer (R260-R263). -/

namespace Sys2Proof.Machine

/-- A command whose checks raise an error fails with its codes and changes nothing else (R127). -/
theorem exec_fails (i : Instr) (s : State) (L : Latch) (e : CmdError) (hl : s.latch = some L)
    (hb : bodyOf i s L.ops = .error e) :
    ∃ t, exec i s = .next t ∧ Failed s t (errorCode e) (errorCause e) ∧ OnlyWrites s t 0 0 :=
  ⟨_, exec_error i s L e hl hb, raiseError_failed s e, raiseError_frame s e⟩

/-! ## The comparison of two regions (R250-R252) -/

theorem countBelow_eq_zero_iff (n : Nat) (p : Nat → Bool) : countBelow n p = 0 ↔ ∀ i, i < n → p i = false := by
  simp [countBelow, List.filter_eq_nil_iff]

theorem differences_eq_zero_iff (s : State) (L : Operands) :
    differences s L = 0 ↔ ∀ i, i < L.len0.toNat → inputBit s L i = secondBit s L i := by
  simp [differences, countBelow_eq_zero_iff]

/-- The mismatches of the two MemReads are the differing positions of the two inputs (R250). -/
theorem mismatches_inputs (s : State) (L : Operands) (hlen : L.len0 = L.len1) :
    mismatches (memRead s 0 (src0At L) (len0Of L)) (memRead s 1 (src1At L) (len1Of L)) = differences s L := by
  rw [show len1Of L = len0Of L from congrArg BitVec.toNat hlen.symm]
  exact mismatches_memRead ..

/-- SUCC whose checks all pass (R252). -/
theorem exec_succ_completes (s : State) (L : Latch) (hl : s.latch = some L) (hlen : L.ops.len0 = L.ops.len1)
    (h0 : Fits s L.ops.src0.toNat L.ops.len0.toNat) (h1 : Fits s L.ops.src1.toNat L.ops.len1.toNat) :
    ∃ t, exec .succ s = .next t ∧
      Completed s t 0 (if differences s L.ops = 0 then 1 else 0) L.ops.len0.toNat ∧ OnlyWrites s t 0 0 := by
  have hbody : bodyOf .succ s L.ops = compareRegions s L.ops fun a b => if mismatches a b = 0 then 1 else 0 := by
    simp only [bodyOf, bodySucc, len0Of, len1Of, hlen, decide_true, require_true]
  refine compareRegions_result .succ s L _ _ hl hbody h0 h1 (by rw [mismatches_inputs s L.ops hlen]) ?_
  split <;> omega

/-- Settles O35. -/
theorem berCountsDifferences : Obligations.BerCountsDifferences := by
  unfold Obligations.BerCountsDifferences
  exact exec_ber_completes

/-- Settles O36: RES0 is 1 exactly if no position differs. -/
theorem succTestsEquality : Obligations.SuccTestsEquality := by
  unfold Obligations.SuccTestsEquality
  intro s L hl hlen h0 h1
  obtain ⟨t, ht, hdone, hframe⟩ := exec_succ_completes s L hl hlen h0 h1
  refine ⟨t, ht, hdone, ?_, hframe⟩
  rw [← differences_eq_zero_iff, ← BitVec.toNat_inj, hdone.res0_eq]
  split_ifs with h <;> simp [h]

/-! ## A region against itself (R255) -/

/-- Two MemReads differ in a cell exactly if nothing has written it and their draws differ (R21). -/
theorem readBit_bne_readBit (s : State) (k l x : Nat) : (readBit s k x != readBit s l x) =
    ((s.cell x).isNone && (Config.freeBit s.draws k x != Config.freeBit s.draws l x)) := by
  cases h : s.cell x with
  | none => simp [readBit_of_unwritten, h]
  | some b => simp [readBit_of_written s _ x b h]

theorem differences_eq_unlikeDraws (s : State) (L : Operands) (h : L.src0 = L.src1) :
    differences s L = unlikeDraws s L := by
  refine countBelow_congr _ _ _ fun i _ => ?_
  rw [inputBit, secondBit, ← h, readBit_bne_readBit]

theorem unlikeDraws_of_written (s : State) (L : Operands)
    (h : ∀ i, i < L.len0.toNat → s.cell (L.src0.toNat + i) ≠ none) : unlikeDraws s L = 0 :=
  countBelow_eq_zero _ _ fun i hi => by simp [h i hi]

/-- BER and SUCC fail on unequal lengths before any other check (R251, R252). -/
theorem exec_metric_unequal_lengths (i : Instr) (s : State) (L : Latch) (hi : isMetric i = true)
    (hl : s.latch = some L) (hlen : L.ops.len0 ≠ L.ops.len1) : ∃ t, exec i s = .next t ∧ Failed s t 1 6 := by
  have hcheck : decide (len0Of L.ops = len1Of L.ops) = false :=
    decide_eq_false fun h => hlen (BitVec.eq_of_toNat_eq h)
  have hbody : bodyOf i s L.ops = .error .metricLen := by
    cases i with
    | ber => simp only [bodyOf, bodyBer, hcheck, require_false]
    | succ => simp only [bodyOf, bodySucc, hcheck, require_false]
    | _ => cases hi
  obtain ⟨t, ht, hfail, -⟩ := exec_fails i s L .metricLen hl hbody
  exact ⟨t, ht, hfail⟩

theorem berValue_of_no_differences (r0 r1 : Word) (h : r0.toNat = 0) : berValue r0 r1 = 0 := by
  simp [berValue, h]

/-- Settles O37: against itself a region differs in its unlike draws, of which a written region has none. -/
theorem metricsOfARegionAgainstItself : Obligations.MetricsOfARegionAgainstItself := by
  unfold Obligations.MetricsOfARegionAgainstItself
  intro s L hl
  refine ⟨fun hlen hsrc hfits => ?_, fun hlen =>
    ⟨exec_metric_unequal_lengths .ber s L rfl hl hlen, exec_metric_unequal_lengths .succ s L rfl hl hlen⟩⟩
  have hfits1 : Fits s L.ops.src1.toNat L.ops.len1.toNat := hsrc ▸ hlen ▸ hfits
  obtain ⟨t, ht, hber, -⟩ := exec_ber_completes s L hl hlen hfits hfits1
  obtain ⟨u, hu, hsucc, -⟩ := exec_succ_completes s L hl hlen hfits hfits1
  rw [differences_eq_unlikeDraws s L.ops hsrc] at hber hsucc
  refine ⟨⟨t, ht, hber⟩, ⟨u, hu, hsucc⟩, fun hwritten => ?_⟩
  rw [unlikeDraws_of_written s L.ops hwritten] at hber hsucc
  have hone : u.res0 = 1 := BitVec.eq_of_toNat_eq hsucc.res0_eq
  exact ⟨⟨t, ht, hber, berValue_of_no_differences _ _ hber.res0_eq⟩, ⟨u, hu, hsucc, if_pos hone⟩⟩

/-! ## The timer commands (R260-R263) -/

/-- An elapsed time, modulo 2^64 (R263). -/
theorem toNat_elapsed (a b : BitVec 64) : (a - b).toNat = (a.toNat + 2 ^ 64 - b.toNat) % 2 ^ 64 := by
  rw [BitVec.toNat_sub]
  congr 1
  omega

/-- A timer command that completes answers the two words of its ticks, whatever it does to the timer state, and
changes nothing but that state. -/
theorem completeTicks_result (s : State) (v : BitVec 64) (ts : TimerState) (a b : BitVec 64) :
    let t := completeTicks v { s with tstate := ts, t0 := a, t1 := b }
    Completed s t 0 (v.toNat % 2 ^ 32) (v.toNat / 2 ^ 32) ∧ KeepsCells s t 0 0 ∧ KeepsRest s t := by
  refine ⟨⟨rfl, BitVec.extractLsb'_toNat 0 32 v, ?_, rfl, rfl, rfl⟩, fun _ _ => ⟨rfl, fun _ => rfl⟩,
    ⟨rfl, rfl, rfl, rfl, rfl, rfl, rfl, rfl, rfl⟩⟩
  refine (BitVec.extractLsb'_toNat 32 32 v).trans ?_
  rw [Nat.shiftRight_eq_div_pow]
  omega

/-- Settles O38. -/
theorem tstartStartsTheTimer : Obligations.TstartStartsTheTimer := by
  unfold Obligations.TstartStartsTheTimer
  intro s L hl
  obtain ⟨hdone, hcells, hrest⟩ := completeTicks_result s s.now .running s.now s.t1
  exact ⟨_, exec_ok .tstart s _ L hl rfl, hdone, rfl, rfl, rfl, hcells, hrest⟩

/-- Settles O39: the check of TSTATE passes exactly when RUNNING. -/
theorem tstopFreezesTheInterval : Obligations.TstopFreezesTheInterval := by
  unfold Obligations.TstopFreezesTheInterval
  intro s L hl
  refine ⟨fun hrun => ?_, fun hnot => ?_⟩
  · have hbody : bodyOf .tstop s L.ops =
        .ok (completeTicks (s.now - s.t0) { s with t1 := s.now, tstate := .stopped }) := by
      simp only [bodyOf, bodyTstop, hrun, decide_true, require_true]
    obtain ⟨hdone, hcells, hrest⟩ := completeTicks_result s (s.now - s.t0) .stopped s.t0 s.now
    exact ⟨_, _, exec_ok .tstop s _ L hl hbody, toNat_elapsed s.now s.t0, hdone, rfl, rfl, rfl, hcells, hrest⟩
  · have hbody : bodyOf .tstop s L.ops = .error .stopNotRunning := by
      simp only [bodyOf, bodyTstop, decide_eq_false hnot, require_false]
    exact exec_fails .tstop s L .stopNotRunning hl hbody

/-- TREAD that answers the interval from T0 to a time stamp: it completes and changes nothing else. -/
theorem exec_tread_completes (s : State) (L : Latch) (stamp : BitVec 64) (hl : s.latch = some L)
    (hb : bodyOf .tread s L.ops = .ok (completeTicks (stamp - s.t0) s)) :
    ∃ t e, exec .tread s = .next t ∧ e = (stamp.toNat + 2 ^ 64 - s.t0.toNat) % 2 ^ 64 ∧
      Completed s t 0 (e % 2 ^ 32) (e / 2 ^ 32) ∧ OnlyWrites s t 0 0 := by
  obtain ⟨hdone, hcells, hrest⟩ := completeTicks_result s (stamp - s.t0) s.tstate s.t0 s.t1
  exact ⟨_, _, exec_ok .tread s _ L hl hb, toNat_elapsed stamp s.t0, hdone, hcells, hrest, rfl, rfl, rfl⟩

/-- Settles O40: one case per timer state. -/
theorem treadReadsTheInterval : Obligations.TreadReadsTheInterval := by
  unfold Obligations.TreadReadsTheInterval
  intro s L hl
  refine ⟨fun hrun => ?_, fun hstop => ?_, fun hidle => ?_⟩
  · exact exec_tread_completes s L s.now hl (by simp only [bodyOf, bodyTread, hrun])
  · exact exec_tread_completes s L s.t1 hl (by simp only [bodyOf, bodyTread, hstop])
  · exact exec_fails .tread s L .readIdle hl (by simp only [bodyOf, bodyTread, hidle])

/-- A TSTART that answers a next state has recorded NOW and started the timer (R260). -/
theorem timer_of_exec_tstart {s t : State} (h : exec .tstart s = .next t) : t.tstate = .running ∧ t.t0 = s.now := by
  obtain ⟨L, hl, -⟩ := exec_cases .tstart s t h
  obtain ⟨t', ht, -, ht0, hrun, -⟩ := tstartStartsTheTimer s L hl
  obtain rfl : t = t' := Host.Outcome.next.inj (h.symm.trans ht)
  exact ⟨hrun, ht0⟩

/-- Settles O41: TSTOP reads the start that TSTART recorded, and TREAD the two stamps that TSTOP left. -/
theorem timerMeasuresStartToStop : Obligations.TimerMeasuresStartToStop := by
  unfold Obligations.TimerMeasuresStartToStop
  intro s t u v w M N ht hu hkeep hv hw hkeep'
  obtain ⟨hrun, hstart⟩ := timer_of_exec_tstart ht
  obtain ⟨v', e, hv', he, hstop, ht1, hstopped, ht0, -⟩ :=
    (tstopFreezesTheInterval u M hu).1 (hkeep.tstate_eq.trans hrun)
  obtain rfl : v = v' := Host.Outcome.next.inj (hv.symm.trans hv')
  obtain ⟨x, d, hx, hd, hread, -⟩ := (treadReadsTheInterval w N hw).2.1 (hkeep'.tstate_eq.trans hstopped)
  have hde : d = e := by rw [hd, he, hkeep'.t1_eq, hkeep'.t0_eq, ht1, ht0]
  subst hde
  refine ⟨?_, x, hx, BitVec.eq_of_toNat_eq (hread.res0_eq.trans hstop.res0_eq.symm),
    BitVec.eq_of_toNat_eq (hread.res1_eq.trans hstop.res1_eq.symm), by rw [hread.status_eq]⟩
  rw [hstop.res0_eq, hstop.res1_eq, Nat.mod_add_div, he, hkeep.t0_eq, hstart]

end Sys2Proof.Machine

/-! PROOF. Errors, the interrupt and the time base (60_exceptions.md): ILLEGAL_CMD (R282), the order of the checks of a
command (R281, R283, R284, R286), IRQ (R290) and NOW (R300). -/

namespace Sys2Proof.Machine

/-! ## ILLEGAL_CMD (R282) -/

theorem errorCode_illegalError (e : Illegal) : errorCode (illegalError e) = 2 := by cases e <;> rfl

/-- A latched word that is no command fails with the cause of the decoder's check and changes nothing else (R95, R127). -/
theorem engineTurn_fails {s : State} {L : Latch} {e : Illegal} (hl : s.latch = some L)
    (hd : decode L.cmd = .error e) :
    ∃ t, engineTurn s = .next t ∧ Failed s t 2 (errorCause (illegalError e)) ∧ OnlyWrites s t 0 0 :=
  ⟨_, engineTurn_illegal s L e hl hd, errorCode_illegalError e ▸ raiseError_failed s _, raiseError_frame s _⟩

/-- Settles O4: one case per check of the decoder. -/
theorem illegalWordRaisesIllegalCmd : Obligations.IllegalWordRaisesIllegalCmd := by
  unfold Obligations.IllegalWordRaisesIllegalCmd
  intro s L cause hl hbad
  obtain ⟨hrsvBits, hbadOpcode, hsNotAllowed, -, -⟩ := decoderChecksInOrder L.cmd
  rcases hbad with ⟨hrsv, rfl⟩ | ⟨hrsv, hop, rfl⟩ | ⟨hrsv, h1, h14, hs, h9, rfl⟩
  · exact engineTurn_fails hl (hrsvBits hrsv)
  · exact engineTurn_fails hl (hbadOpcode hrsv (by omega))
  · exact engineTurn_fails hl (hsNotAllowed hrsv h1 h14 hs h9)

/-! ## INVALID_PARAM (R281) -/

theorem require_of {p : Prop} [Decidable p] (h : p) (e : CmdError) (rest : Except CmdError State) :
    require (decide p) e rest = rest := by
  rw [decide_eq_true h, require_true]

theorem require_of_not {p : Prop} [Decidable p] (h : ¬p) (e : CmdError) (rest : Except CmdError State) :
    require (decide p) e rest = .error e := by
  rw [decide_eq_false h, require_false]

/-- A failed precondition is the first check to fail: nothing of the regions is looked at (R123 step 2, R286). -/
theorem bodyOf_of_invalidParam {i : Instr} {L : Operands} {cause : BitVec 8} (s : State)
    (h : InvalidParam L i cause) : ∃ e, bodyOf i s L = .error e ∧ errorCode e = 1 ∧ errorCause e = cause := by
  cases i with
  | renc | rdec =>
    obtain ⟨rfl, hfactor⟩ := h
    exact ⟨.repNNonpos, require_of_not (Int.not_le.2 (Int.lt_add_one_of_le hfactor)) _ _, rfl, rfl⟩
  | henc =>
    obtain ⟨rfl, hlen⟩ := h
    exact ⟨.hamEncLen, require_of_not hlen _ _, rfl, rfl⟩
  | hdec =>
    obtain ⟨rfl, hlen⟩ := h
    exact ⟨.hamDecLen, require_of_not hlen _ _, rfl, rfl⟩
  | hdecb =>
    obtain ⟨rfl, hlen⟩ := h
    exact ⟨.hamDecbLen, require_of_not hlen _ _, rfl, rfl⟩
  | noise seeded =>
    obtain ⟨rfl, hprob⟩ := h
    exact ⟨.probRange, require_of_not (Nat.not_le.2 hprob) _ _, rfl, rfl⟩
  | ber | succ =>
    obtain ⟨rfl, hlen⟩ := h
    exact ⟨.metricLen, require_of_not hlen _ _, rfl, rfl⟩
  | bpack | tpack | hencb | tstart | tstop | tread => exact h.elim

/-- Settles O14. -/
theorem failedPreconditionRaisesInvalidParam : Obligations.FailedPreconditionRaisesInvalidParam := by
  unfold Obligations.FailedPreconditionRaisesInvalidParam
  intro i s L cause hl hbad
  obtain ⟨e, hbody, hcode, hcause⟩ := bodyOf_of_invalidParam s hbad
  exact hcode ▸ hcause ▸ exec_fails i s L e hl hbody

/-! ## RANGE and OVERLAP (R283, R284) -/

/-- After its precondition, a command with one input and one output region checks its regions (R123). -/
theorem bodyOf_transducer {i : Instr} {L : Operands} (s : State) (hi : isTransducer i = true)
    (hvalid : ∀ c, ¬InvalidParam L i c) : ∃ f, bodyOf i s L = transduce i s L f := by
  cases i with
  | bpack => exact ⟨_, by rw [bodyOf, bodyBpack]⟩
  | tpack => exact ⟨_, by rw [bodyOf, bodyTpack]⟩
  | hencb => exact ⟨_, by rw [bodyOf, bodyHencb]⟩
  | renc | rdec => exact ⟨_, require_of (Int.not_le.1 fun hfactor => hvalid 1 ⟨rfl, hfactor⟩) _ _⟩
  | henc => exact ⟨_, require_of (not_not.1 fun hlen => hvalid 2 ⟨rfl, hlen⟩) _ _⟩
  | hdec => exact ⟨_, require_of (not_not.1 fun hlen => hvalid 3 ⟨rfl, hlen⟩) _ _⟩
  | hdecb => exact ⟨_, require_of (not_not.1 fun hlen => hvalid 4 ⟨rfl, hlen⟩) _ _⟩
  | noise seeded => exact ⟨_, require_of (Nat.not_lt.1 fun hprob => hvalid 5 ⟨rfl, hprob⟩) _ _⟩
  | ber | succ | tstart | tstop | tread => cases hi

/-- After its precondition, BER and SUCC check their two inputs (R123). -/
theorem bodyOf_metric {i : Instr} {L : Operands} (s : State) (hi : isMetric i = true)
    (hvalid : ∀ c, ¬InvalidParam L i c) : ∃ f, bodyOf i s L = compareRegions s L f := by
  cases i with
  | ber | succ => exact ⟨_, require_of (not_not.1 fun hlen => hvalid 6 ⟨rfl, hlen⟩) _ _⟩
  | _ => cases hi

theorem inRange_of_fits {s : State} {a n : Nat} (h : Fits s a n) : inRange s.params.bmBits a n = true :=
  (inRange_iff ..).2 h

theorem inRange_of_not_fits {s : State} {a n : Nat} (h : ¬Fits s a n) : inRange s.params.bmBits a n = false :=
  Bool.eq_false_iff.2 (mt (inRange_iff ..).1 h)

theorem overlaps_of_not_apart {a n b m : Nat} (h : ¬Apart a n b m) : overlaps a n b m = true :=
  Bool.eq_true_of_not_eq_false (mt (overlaps_eq_false_iff ..).1 h)

section
variable {s : State} {L : Operands}

theorem transduce_src0Range (i : Instr) (f : BitSeq → Output) (hsrc : ¬Fits s L.src0.toNat L.len0.toNat) :
    transduce i s L f = .error .src0Range := by
  simp [transduce, src0At, len0Of, inRange_of_not_fits hsrc]

theorem transduce_dstRange (i : Instr) (f : BitSeq → Output) (hsrc : Fits s L.src0.toNat L.len0.toNat)
    (hdst : ¬Fits s L.dst.toNat (outLen i L)) : transduce i s L f = .error .dstRange := by
  simp [transduce, src0At, len0Of, dstAt, inRange_of_fits hsrc, inRange_of_not_fits hdst]

theorem transduce_dstSrc0 (i : Instr) (f : BitSeq → Output) (hsrc : Fits s L.src0.toNat L.len0.toNat)
    (hdst : Fits s L.dst.toNat (outLen i L))
    (hmeet : ¬Apart L.dst.toNat (outLen i L) L.src0.toNat L.len0.toNat) :
    transduce i s L f = .error .dstSrc0 := by
  simp [transduce, src0At, len0Of, dstAt, inRange_of_fits hsrc, inRange_of_fits hdst, overlaps_of_not_apart hmeet]

theorem compareRegions_src0Range (f : BitSeq → BitSeq → Nat) (hsrc : ¬Fits s L.src0.toNat L.len0.toNat) :
    compareRegions s L f = .error .src0Range := by
  simp [compareRegions, src0At, len0Of, inRange_of_not_fits hsrc]

theorem compareRegions_src1Range (f : BitSeq → BitSeq → Nat) (hsrc : Fits s L.src0.toNat L.len0.toNat)
    (hsrc1 : ¬Fits s L.src1.toNat L.len1.toNat) : compareRegions s L f = .error .src1Range := by
  simp [compareRegions, src0At, len0Of, src1At, len1Of, inRange_of_fits hsrc, inRange_of_not_fits hsrc1]

end

/-- `exec_fails` without its frame. -/
theorem exec_failed {i : Instr} {s : State} {L : Latch} {e : CmdError} (hl : s.latch = some L)
    (hb : bodyOf i s L.ops = .error e) : ∃ t, exec i s = .next t ∧ Failed s t (errorCode e) (errorCause e) :=
  (exec_fails i s L e hl hb).imp fun _ ⟨ht, hfail, _⟩ => ⟨ht, hfail⟩

/-- Settles O15: after the precondition, one case per region check of the command. -/
theorem regionErrorsInOrder : Obligations.RegionErrorsInOrder := by
  unfold Obligations.RegionErrorsInOrder
  constructor
  · intro i s L hl hi hvalid
    obtain ⟨f, hbody⟩ := bodyOf_transducer s hi hvalid
    refine ⟨fun hsrc => ?_, fun hsrc hdst => ?_, fun hsrc hdst hmeet => ?_⟩
    · exact exec_failed hl (hbody.trans (transduce_src0Range i f hsrc))
    · exact exec_failed hl (hbody.trans (transduce_dstRange i f hsrc hdst))
    · exact exec_failed hl (hbody.trans (transduce_dstSrc0 i f hsrc hdst hmeet))
  · intro i s L hl hi hvalid
    obtain ⟨f, hbody⟩ := bodyOf_metric s hi hvalid
    refine ⟨fun hsrc => ?_, fun hsrc hsrc1 => ?_⟩
    · exact exec_failed hl (hbody.trans (compareRegions_src0Range f hsrc))
    · exact exec_failed hl (hbody.trans (compareRegions_src1Range f hsrc hsrc1))

/-! ## The interrupt (R290) -/

/-- A command that ends raises IRQ exactly if IRQEN lets it, in success and in error alike. -/
theorem Ends.irq_eq {s t : State} (h : Ends s t) : t.irq = s.doneIe := by
  rw [State.irq, h.done, h.rest.doneIe_eq, Bool.true_and]

theorem irq_regWrite_status (s : State) (v : Word) (hclear : v.getLsbD 1 = true) :
    (regWrite s .status v).irq = false := by
  simp [regWrite, statusWritten, State.irq, hclear]

theorem irq_accept (s : State) (w : Word) : (accept s w).irq = false := by simp [State.irq]

theorem irq_regWrite_irqen (s : State) (v : Word) :
    (regWrite s .irqen v).irq = (s.status.done && v.getLsbD 0) := rfl

/-- Settles O52: each access is the write of its register, and the engine's turn ends its command. -/
theorem interruptLevel : Obligations.InterruptLevel := by
  unfold Obligations.InterruptLevel
  refine ⟨fun s => rfl, fun s t hb ht => ?_, fun s v hclear => ?_, fun s w hb => ?_, fun s v => ?_, rfl⟩
  · obtain ⟨L, hl⟩ := Option.isSome_iff_exists.1 hb
    obtain ⟨t', ht', hend⟩ := engineTurn_ends hl
    obtain rfl : t = t' := Host.Outcome.next.inj (ht.symm.trans ht')
    exact hend.irq_eq
  · exact (congrArg _ (hostWrite_regAddr s .status v)).trans (irq_regWrite_status s v hclear)
  · have haccept : hostAccess s (.write .w32 0x04 w) = accept s w :=
      (hostWrite_regAddr s .cmd w).trans (offerCommand_idle hb w)
    rw [haccept, irq_accept]
  · exact (congrArg _ (hostWrite_regAddr s .irqen v)).trans (irq_regWrite_irqen s v)

/-! ## The time base (R300) -/

theorem now_hostAccess (s : State) (a : Access) : (hostAccess s a).now = s.now := by
  obtain ⟨-, -, -, -, -, -, -, hnow, -⟩ := hostAccess_keeps s a
  exact hnow

theorem now_hostTurn (s : State) : (hostTurn s).now = s.now := by
  rcases hostTurn_cases s with ⟨-, ht⟩ | ⟨a, rest, -, ht⟩ | ⟨rest, v, -, -, ht⟩
  · rw [ht]
  · rw [ht, now_hostAccess]
  · rw [ht]

theorem now_engineTurn {s t : State} (h : engineTurn s = .next t) : t.now = s.now := by
  cases hl : s.latch with
  | none => rw [← Host.Outcome.next.inj ((engineTurn_idle hl).symm.trans h)]
  | some L =>
    obtain ⟨t', ht', hend⟩ := engineTurn_ends hl
    rw [Host.Outcome.next.inj (h.symm.trans ht'), hend.rest.now_eq]

/-- A turn other than a time-base step and `rst` leaves NOW as it was. -/
theorem now_takeTurn {turn : Turn} {s t : State} (hbase : ∀ k, turn ≠ .timeBase k) (hrst : turn ≠ .rst)
    (h : takeTurn turn s = .next t) : t.now = s.now := by
  cases turn with
  | host => rw [← Host.Outcome.next.inj h, now_hostTurn]
  | engine => exact now_engineTurn h
  | timeBase k => exact absurd rfl (hbase k)
  | rst => exact absurd rfl hrst

/-- With no turn listed, a busy engine or a host with an access to make moves, and NOW stays (log 8). -/
theorem now_step_unlisted {s t : State} (hs : s.sched = []) (hmoves : s.busy = true ∨ s.port ≠ [])
    (h : step s = .next t) : t.now = s.now := by
  cases hb : s.busy with
  | true => rw [now_engineTurn ((step_unlisted_engine s hs hb).symm.trans h), beginStep_now]
  | false =>
    have hport : s.port ≠ [] := hmoves.resolve_left (by simp [hb])
    rw [← Host.Outcome.next.inj ((step_unlisted_host s hs hb hport).symm.trans h), now_hostTurn, beginStep_now]

/-- Settles O53: the listed time-base and `rst` turns, the free time-base step, and every other turn. -/
theorem nowChangesOnlyInTimeBaseSteps : Obligations.NowChangesOnlyInTimeBaseSteps := by
  unfold Obligations.NowChangesOnlyInTimeBaseSteps
  refine ⟨fun s k rest hs => ?_, step_unlisted_timeBase, fun s t rest hs ht => ?_,
    fun s t hbase hrst hmoves ht => ?_, rfl⟩
  · exact ⟨s.now + k, step_cons s _ rest hs, BitVec.toNat_add s.now k⟩
  · rw [← Host.Outcome.next.inj ((step_cons s .rst rest hs).symm.trans ht)]
    rfl
  · cases hs : s.sched with
    | nil => exact now_step_unlisted hs (hmoves hs) ht
    | cons turn rest =>
      have hnow := now_takeTurn (fun k hk => hbase k rest (hk ▸ hs)) (fun hk => hrst rest (hk ▸ hs))
        ((step_cons s turn rest hs).symm.trans ht)
      exact hnow

end Sys2Proof.Machine

/-! PROOF. Reset (70_reset_and_hazards.md R320) and the end of an accepted command (R332). -/

namespace Sys2Proof.Machine

/-! ## The state after reset (R320) -/

/-- Settles O55: no register, cell or latch holds anything, and the default parameters are legal. -/
theorem resetHasTheInvariant : Obligations.ResetHasTheInvariant where
  params_legal := by decide
  memory_sorted := rfl
  memory_below := rfl
  codes_legal := ⟨rfl, rfl⟩
  busy_clear := nofun
  latch_cmd := nofun
  error_results := nofun
  outlen_bound := Nat.zero_le _

/-- Power-up is the reset of a machine with the default parameters. -/
theorem reset_eq_resetTurn : State.reset = resetTurn State.reset := rfl

/-- A step in which `rst` is asserted resets the machine. -/
theorem step_listed_rst {s : State} {rest : List Turn} (hs : s.sched = .rst :: rest) :
    step s = .next (resetTurn { beginStep s with sched := rest }) := by
  rw [step_cons s .rst rest hs, takeTurn_rst]

theorem statusWord_reset : statusWord false .reset = 0 := by decide

theorem regRead_status_resetTurn (s : State) : regRead (resetTurn s) .status = 0 := statusWord_reset

/-- With legal parameters BM_BITS fits a register (10_state.md R41; 00_scope.md R6). -/
theorem toNat_regRead_bmsize (s : State) (hp : s.params.wf = true) : (regRead s .bmsize).toNat = s.params.bmBits := by
  have hbits := params_bounds s hp
  exact regValue_toNat _ (by omega)

/-- Settles O54: both states are a reset of some state, whose fields are constants and whose registers are read at their
addresses. -/
theorem resetValues : Obligations.ResetValues := by
  unfold Obligations.ResetValues
  intro t ht
  obtain ⟨u, rfl⟩ : ∃ u, t = resetTurn u := by
    rcases ht with rfl | ⟨s, ⟨rest, hs⟩, hstep⟩
    · exact ⟨_, reset_eq_resetTurn⟩
    · exact ⟨_, Host.Outcome.next.inj (hstep.symm.trans (step_listed_rst hs))⟩
  have hstatus := hostRead_regAddr (resetTurn u) .status
  rw [regRead_status_resetTurn] at hstatus
  exact ⟨rfl, hstatus, rfl, rfl, rfl, rfl, rfl, rfl, rfl, rfl, rfl, rfl, rfl, rfl, fun _ => rfl, rfl,
    hostRead_regAddr _ .id, _, hostRead_regAddr _ .bmsize, toNat_regRead_bmsize _⟩

/-! ## A turn takes nothing off the order of steps -/

theorem sched_hostTurn (s : State) : (hostTurn s).sched = s.sched := by
  rcases hostTurn_cases s with ⟨-, ht⟩ | ⟨a, rest, -, ht⟩ | ⟨rest, v, -, -, ht⟩
  · rw [ht]
  · obtain ⟨-, -, -, -, -, -, -, -, -, hsched, -⟩ := hostAccess_keeps { s with port := rest } a
    rw [ht, hsched]
  · rw [ht]

theorem sched_engineTurn {s t : State} (h : engineTurn s = .next t) : t.sched = s.sched := by
  cases hl : s.latch with
  | none => rw [← Host.Outcome.next.inj ((engineTurn_idle hl).symm.trans h)]
  | some L =>
    obtain ⟨t', ht', hend⟩ := engineTurn_ends hl
    rw [Host.Outcome.next.inj (h.symm.trans ht'), hend.rest.sched_eq]

theorem sched_takeTurn {turn : Turn} {s t : State} (h : takeTurn turn s = .next t) : t.sched = s.sched := by
  cases turn with
  | host => rw [← Host.Outcome.next.inj h, sched_hostTurn]
  | engine => exact sched_engineTurn h
  | timeBase k => rw [← Host.Outcome.next.inj h, timeBaseTurn_sched]
  | rst => rw [← Host.Outcome.next.inj h, resetTurn]

/-- A step uses up exactly the first listed turn. -/
theorem sched_step {s t : State} (h : step s = .next t) : t.sched = s.sched.tail := by
  obtain ⟨turn, hturn⟩ := step_is_a_turn s
  exact sched_takeTurn (hturn.symm.trans h)

/-! ## A busy machine becomes idle (R122, R332) -/

/-- With no turn listed a busy machine gives the engine its turn, which ends the command (log 8). -/
theorem step_unlisted_busy {s : State} (hs : s.sched = []) (hb : s.busy = true) :
    ∃ t, step s = .next t ∧ t.busy = false := by
  obtain ⟨L, hl⟩ := Option.isSome_iff_exists.1 hb
  obtain ⟨t, ht, hend⟩ := engineTurn_ends (s := beginStep s) hl
  exact ⟨t, (step_unlisted_engine s hs hb).trans ht, by simp [State.busy, hend.latch_none]⟩

/-- Settles O13, by induction on the listed turns: each step uses up one, and after the last the engine moves. -/
theorem acceptedCommandCompletes : Obligations.AcceptedCommandCompletes := by
  unfold Obligations.AcceptedCommandCompletes
  intro s hb
  induction hs : s.sched generalizing s with
  | nil =>
    obtain ⟨t, ht, hidle⟩ := step_unlisted_busy hs hb
    exact ⟨1, t, le_rfl, Nat.le_add_left .., run_one ht, hidle⟩
  | cons turn rest ih =>
    obtain ⟨u, hu⟩ := stepNeverStops s
    cases hbu : u.busy with
    | false => exact ⟨1, u, le_rfl, Nat.le_add_left .., run_one hu, hbu⟩
    | true =>
      have hrest : u.sched = rest := by rw [sched_step hu, hs, List.tail_cons]
      obtain ⟨k, t, -, hk, hrun, hidle⟩ := ih u hbu hrest
      exact ⟨k + 1, t, Nat.le_add_left .., Nat.succ_le_succ hk, (run_succ k hu).trans hrun, hidle⟩

end Sys2Proof.Machine
